-- ==== Sys2Proof/Word.lean ====
section
/-! DEFINITION. The word types of the engine (00_scope.md R5: REG_W, ADDR_W, SP_W, PC_W). -/

namespace Sys2Proof

/-- A register, an operand byte or a memory cell: `REG_W` = 8 bits, unsigned (R5, R21, R50). -/
abbrev Byte := BitVec 8

/-- A memory address in range, and the stack pointer: `ADDR_W` = `SP_W` = 8 bits (R28, R50). -/
abbrev Addr := BitVec 8

/-- The program counter: `PC_W` = 9 bits, so that 256, one past the last byte, has a value (R25). -/
abbrev Pc := BitVec 9

end Sys2Proof
end

