-- ==== Sys2Proof/Machine/Flags.lean ====
section
/-! DEFINITION. The flag register's fields and the one flag computation (10_state.md R30; 43_alu.md
R152). -/

namespace Sys2Proof.Machine

/-- `fl` after a comparison that found equality: bit 0, `E` (R30). -/
def flagEqual : Byte := 0b00000001

/-- `fl` after a comparison that found the first operand greater: bit 1, `G` (R30). -/
def flagGreater : Byte := 0b00000010

/-- `fl` after a comparison that found the first operand less: bit 2, `L` (R30). -/
def flagLess : Byte := 0b00000100

/-- The ALU's comparison of two unsigned bytes: the new value of the whole flag register (R152). -/
def aluCmp (u v : Byte) : Byte :=
  if u.toNat = v.toNat then flagEqual
  else if u.toNat > v.toNat then flagGreater
  else flagLess

/-- Bit 0 of the flag register, `E`, the only bit an instruction reads (R31). -/
def equalBit (fl : Byte) : Bool := fl.getLsbD 0

end Sys2Proof.Machine
end

