-- ==== Sys2Proof/Config.lean ====
section
/-! DEFINITION. What is fixed for a machine instance (00_scope.md R5, R6). The values of the parameters
that this hardware takes by default, `Config.hardware`, stand in Decode.lean. No value of this
hardware is free: 93_implementation_defined.md, part 1. -/

namespace Sys2Proof

/-- `MEM_SIZE`: bytes of memory (R5). -/
abbrev memSize : Nat := 256

/-- `NUM_REGS`: registers in the file (R5). -/
abbrev numRegs : Nat := 8

/-- `SP_INIT`: the stack pointer's reset value (R5, R28). -/
abbrev spInit : Addr := 0xF4

/-- The parameters the spec adds: the opcode bytes, whose values the source does not give (D1), and
whether the optional ADD and SUBTRACT exist (D13). They are not state (R20, R38). -/
structure Config where
  opcHalt : Byte
  opcLoadImmediate : Byte
  opcPrintReg : Byte
  opcMultiply : Byte
  opcPush : Byte
  opcPop : Byte
  opcCompare : Byte
  opcJump : Byte
  opcJumpIfEqual : Byte
  opcJumpIfNotEqual : Byte
  opcAdd : Byte
  opcSubtract : Byte
  extAddSub : Bool
deriving DecidableEq, Repr

end Sys2Proof
end

