-- ==== Sys2Proof/Syntax.lean ====
section
/-! DEFINITION. The instructions, one constructor per row of the opcode table, in the table's order. -/

namespace Sys2Proof

/-- An instruction with its operand bytes (30_encoding.md R80, R81, R83, R84).
A register operand is kept as the whole byte the instruction holds: bytes 8 .. 255 are encodable and
raise `RegisterIndexError` when the instruction executes (R88), so they are part of the syntax.
`add` and `subtract` are rows of the table only under the parameter `EXT_ADDSUB` (R84, R156). -/
inductive Instr where
  | halt
  | loadImmediate (a value : Byte)
  | printReg (a : Byte)
  | multiply (a b : Byte)
  | push (a : Byte)
  | pop (a : Byte)
  | compare (a b : Byte)
  | jump (a : Byte)
  | jumpIfEqual (a : Byte)
  | jumpIfNotEqual (a : Byte)
  | add (a b : Byte)
  | subtract (a b : Byte)
deriving DecidableEq, Repr

end Sys2Proof
end

