-- ==== Sys2Proof/WellFormed.lean ====
section
/-! DEFINITION. Well-formed instructions: every register operand byte names a register (30_encoding.md
R88, R91). An instruction that is not well formed is still encodable, decodes and executes: it raises
`RegisterIndexError`. -/

namespace Sys2Proof

/-- The operand byte is a register index, 0 .. 7 (R88). -/
def namesRegister (v : Byte) : Bool := v.toNat < numRegs

/-- The operand bytes of an instruction that stand in a register position (R83, R84); the immediate of
LOAD_IMMEDIATE is not one (R87). -/
def Instr.regOperands : Instr → List Byte
  | .halt => []
  | .loadImmediate a _ => [a]
  | .printReg a => [a]
  | .multiply a b => [a, b]
  | .push a => [a]
  | .pop a => [a]
  | .compare a b => [a, b]
  | .jump a => [a]
  | .jumpIfEqual a => [a]
  | .jumpIfNotEqual a => [a]
  | .add a b => [a, b]
  | .subtract a b => [a, b]

/-- Every register operand names a register (R91: the only reserved operand values are register
operand bytes 8 .. 255). -/
def Instr.wellFormed (i : Instr) : Bool := i.regOperands.all namesRegister

end Sys2Proof
end

