-- ==== Sys2Proof/Decode.lean ====
section
/-! DEFINITION. The dispatch table, the decoder (total on any bytes, rejecting by name) and the encoder
(30_encoding.md R80 to R90; 40_step.md R113, R114). -/

namespace Sys2Proof

/-- The parameters of this hardware (00_scope.md R5).
UNVERIFIED (log entry 2): the opcode bytes are the defaults the spec gives from general knowledge (D1, G1).
`EXT_ADDSUB` is false (D13, log entry 3). -/
def Config.hardware : Config where
  opcHalt := 0x01
  opcLoadImmediate := 0x82
  opcPrintReg := 0x47
  opcMultiply := 0xA2
  opcPush := 0x45
  opcPop := 0x46
  opcCompare := 0xA7
  opcJump := 0x54
  opcJumpIfEqual := 0x55
  opcJumpIfNotEqual := 0x56
  opcAdd := 0xA0
  opcSubtract := 0xA1
  extAddSub := false

/-- The rows of the dispatch table (R83, R84). -/
inductive Mnemonic where
  | halt | loadImmediate | printReg | multiply | push | pop | compare
  | jump | jumpIfEqual | jumpIfNotEqual | add | subtract
deriving DecidableEq, Repr

/-- The three instruction formats, by number of operand bytes (R80). -/
inductive Format where
  | f0 | f1 | f2
deriving DecidableEq, Repr

/-- Number of operand bytes of a format (R80). -/
def Format.operands : Format → Nat
  | .f0 => 0
  | .f1 => 1
  | .f2 => 2

/-- The column *format* of the dispatch table (R83, R84). -/
def Mnemonic.format : Mnemonic → Format
  | .halt => .f0
  | .loadImmediate => .f2
  | .printReg => .f1
  | .multiply => .f2
  | .push => .f1
  | .pop => .f1
  | .compare => .f2
  | .jump => .f1
  | .jumpIfEqual => .f1
  | .jumpIfNotEqual => .f1
  | .add => .f2
  | .subtract => .f2

/-- The column *length*: the opcode byte and the operand bytes (R80, R83). -/
def Mnemonic.length (m : Mnemonic) : Nat := 1 + m.format.operands

/-- The column *opcode parameter* of the dispatch table (R83, R84). -/
def Mnemonic.opcode (c : Config) : Mnemonic → Byte
  | .halt => c.opcHalt
  | .loadImmediate => c.opcLoadImmediate
  | .printReg => c.opcPrintReg
  | .multiply => c.opcMultiply
  | .push => c.opcPush
  | .pop => c.opcPop
  | .compare => c.opcCompare
  | .jump => c.opcJump
  | .jumpIfEqual => c.opcJumpIfEqual
  | .jumpIfNotEqual => c.opcJumpIfNotEqual
  | .add => c.opcAdd
  | .subtract => c.opcSubtract

/-- The ten rows every instance has (R83). -/
def baseTable : List Mnemonic :=
  [.halt, .loadImmediate, .printReg, .multiply, .push, .pop, .compare, .jump, .jumpIfEqual,
    .jumpIfNotEqual]

/-- The dispatch table: ten rows, and two more when, and only when, `EXT_ADDSUB` is true (R83, R84). -/
def dispatchTable (c : Config) : List Mnemonic :=
  if c.extAddSub then baseTable ++ [.add, .subtract] else baseTable

/-- The opcode bytes in force are pairwise distinct, so that the dispatch table is a function (R6). -/
abbrev Config.Valid (c : Config) : Prop := ((dispatchTable c).map (Mnemonic.opcode c)).Nodup

/-- `decode(op)` of R85: the row whose opcode byte equals `op`, all eight bits compared, or none
(*unrecognized*). -/
def decodeOpcode (c : Config) (op : Byte) : Option Mnemonic :=
  (dispatchTable c).find? fun m => m.opcode c == op

/-- The row of the dispatch table an instruction belongs to. -/
def Instr.mnemonic : Instr → Mnemonic
  | .halt => .halt
  | .loadImmediate _ _ => .loadImmediate
  | .printReg _ => .printReg
  | .multiply _ _ => .multiply
  | .push _ => .push
  | .pop _ => .pop
  | .compare _ _ => .compare
  | .jump _ => .jump
  | .jumpIfEqual _ => .jumpIfEqual
  | .jumpIfNotEqual _ => .jumpIfNotEqual
  | .add _ _ => .add
  | .subtract _ _ => .subtract

/-- The instruction exists in the instance: its row is in the dispatch table (R83, R84, R156). -/
def Config.hasInstr (c : Config) (i : Instr) : Bool := (dispatchTable c).contains i.mnemonic

/-- Length in bytes (R80). -/
def Instr.length (i : Instr) : Nat := i.mnemonic.length

/-- What the decoder answers: an instruction and the bytes after it, or a rejection by name. -/
inductive DecodeResult where
  /-- An instruction, and the bytes that follow it. -/
  | ok (i : Instr) (rest : List Byte)
  /-- There is no opcode byte: the fetch is past the top of memory (R112). -/
  | noOpcode
  /-- The opcode byte has no row in the dispatch table (R90, R113). -/
  | unrecognized
  /-- The opcode is known and an operand byte is missing: it is past the top of memory (R114). -/
  | missingOperand
deriving DecidableEq, Repr

/-- Format `F1`: one operand byte `a` (R81). -/
def operandA (mk : Byte → Instr) : List Byte → DecodeResult
  | a :: rest => .ok (mk a) rest
  | [] => .missingOperand

/-- Format `F2`: operand bytes `a`, then `b` (R81). -/
def operandsAB (mk : Byte → Byte → Instr) : List Byte → DecodeResult
  | a :: b :: rest => .ok (mk a b) rest
  | _ => .missingOperand

/-- After a successful opcode decode, take the operand bytes the row's format has, and no others
(R89, R114). -/
def takeOperands : Mnemonic → List Byte → DecodeResult
  | .halt, bs => .ok .halt bs
  | .loadImmediate, bs => operandsAB .loadImmediate bs
  | .printReg, bs => operandA .printReg bs
  | .multiply, bs => operandsAB .multiply bs
  | .push, bs => operandA .push bs
  | .pop, bs => operandA .pop bs
  | .compare, bs => operandsAB .compare bs
  | .jump, bs => operandA .jump bs
  | .jumpIfEqual, bs => operandA .jumpIfEqual bs
  | .jumpIfNotEqual, bs => operandA .jumpIfNotEqual bs
  | .add, bs => operandsAB .add bs
  | .subtract, bs => operandsAB .subtract bs

/-- The decoder, on the bytes from the opcode upward, lowest address first (R81, R82, R111). -/
def decode (c : Config) : List Byte → DecodeResult
  | [] => .noOpcode
  | op :: bs =>
    match decodeOpcode c op with
    | none => .unrecognized
    | some m => takeOperands m bs

/-- The bytes of an instruction, lowest address first (R80, R81, R83, R84). -/
def encode (c : Config) : Instr → List Byte
  | .halt => [c.opcHalt]
  | .loadImmediate a v => [c.opcLoadImmediate, a, v]
  | .printReg a => [c.opcPrintReg, a]
  | .multiply a b => [c.opcMultiply, a, b]
  | .push a => [c.opcPush, a]
  | .pop a => [c.opcPop, a]
  | .compare a b => [c.opcCompare, a, b]
  | .jump a => [c.opcJump, a]
  | .jumpIfEqual a => [c.opcJumpIfEqual, a]
  | .jumpIfNotEqual a => [c.opcJumpIfNotEqual, a]
  | .add a b => [c.opcAdd, a, b]
  | .subtract a b => [c.opcSubtract, a, b]

/-- The longest instruction, in bytes (R80). -/
def maxLength : Nat := 3

/-- The first `maxLength` bytes of a table word: bit 0 is the least significant bit of the first byte,
a later byte's bits count on, and bits from `nbits` upward are 0. -/
def tableBytes (nbits w : Nat) : List Byte :=
  (List.range maxLength).map fun k => BitVec.ofNat 8 (w % 2 ^ nbits / 256 ^ k)

/-- The instruction this hardware's decoder reads from a table word. -/
def decodeTableWord (nbits w : Nat) : Option Instr :=
  match decode Config.hardware (tableBytes nbits w) with
  | .ok i _ => some i
  | _ => none

end Sys2Proof
end

