-- ==== Sys2Proof/Machine/State.lean ====
section
/-! DEFINITION. The architectural state, as plain data, and its reset value (10_state.md R20, R40); the
reasons a step can stop without a next state. -/

namespace Sys2Proof.Machine

/-- The five kinds of fault of the spec (60_exceptions.md R200). They are NOT outcomes without a next
state: raising one is a next state with `running` cleared and `err` written (R207, log entry 1). -/
inductive FaultKind where
  /-- The opcode byte has no row in the dispatch table (R201). -/
  | decodeError
  /-- A register operand byte is 8 or more (R202). -/
  | registerIndexError
  /-- PUSH with `sp` = 0 (R203). -/
  | stackOverflow
  /-- POP with `sp` = `SP_INIT` (R204). -/
  | stackUnderflow
  /-- A fetch at an address of 256 or more (R206). -/
  | addressError
deriving DecidableEq, Repr

/-- Reasons for a step that has NO next state. There is none: the spec gives the state after every step,
a faulting one included (R116, R207), so no meaning raises one; nothing here is safe or unsafe. -/
inductive Fault where
deriving DecidableEq, Repr

/-- Reasons to give an instruction no meaning. -/
inductive Refusal where
  /-- Raised by an arm of `exec` whose instruction has no meaning yet; no arm does. Safe: the model stops
  where the hardware goes on. -/
  | notModelled (mnemonic : String)
deriving DecidableEq, Repr

/-- The cells of memory that differ from what an unlisted address reads as, addresses strictly rising. -/
abbrev Memory := List Host.Cell

/-- What an unlisted address reads as: memory is all zero at reset (R40, D8; log entry 4). -/
def memDefault : Byte := 0

/-- The state, exactly the components of R20. -/
structure State where
  /-- The register file `x[0]` .. `x[7]` (R21). -/
  x : Vector Byte numRegs
  /-- The program counter: address of the next instruction to fetch, 0 .. 256 (R24, R25). -/
  pc : Pc
  /-- The stack pointer: address of the most recently pushed value (R28). -/
  sp : Addr
  /-- The flag register: bit 0 E, bit 1 G, bit 2 L, bits 7:3 zero (R30). -/
  fl : Byte
  /-- The running flag (R33). -/
  running : Bool
  /-- The error status: why the engine stopped, `none` for code 0 (R34; log entry 9). -/
  err : Option FaultKind
  /-- The 256 bytes of memory (R36). -/
  mem : Memory
  /-- The output channel, oldest value first (R37). -/
  out : List Byte
deriving DecidableEq, Repr

/-- The machine right after reset (R40, R230). -/
def State.reset : State where
  x := Vector.replicate numRegs 0
  pc := 0
  sp := spInit
  fl := 0
  running := true
  err := none
  mem := []
  out := []

/-- What one instruction or one step answers. -/
abbrev Result := Host.Outcome State Fault Refusal

end Sys2Proof.Machine
end

