-- ==== Sys2Proof/Machine/Ops.lean ====
section
/-! DEFINITION. The named operations over memory and registers, raising a fault, and fetching an
instruction. -/

namespace Sys2Proof.Machine

/-! ## Memory -/

/-- The byte at an address (20_memory.md R52, R64). -/
def Memory.read : Memory → Nat → Byte
  | [], _ => memDefault
  | (b, w) :: m, a => if a = b then w else Memory.read m a

/-- A cell in front of a memory, unless its byte is what an unlisted address reads as. -/
def Memory.cons (a : Nat) (v : Byte) (m : Memory) : Memory :=
  if v = memDefault then m else (a, v) :: m

/-- Set the byte at an address and change nothing else (R53), in the canonical form. -/
def Memory.write : Memory → Nat → Byte → Memory
  | [], a, v => Memory.cons a v []
  | (b, w) :: m, a, v =>
    if a < b then Memory.cons a v ((b, w) :: m)
    else if a = b then Memory.cons a v m
    else (b, w) :: Memory.write m a v

/-- Canonical from address `lo` on: addresses rise, lie below `MEM_SIZE`, and no byte is the default. -/
def Memory.wfFrom : Nat → Memory → Bool
  | _, [] => true
  | lo, (a, v) :: m => lo ≤ a && a < memSize && v != memDefault && Memory.wfFrom (a + 1) m

/-- The canonical form of memory: equal memories are equal data. -/
def Memory.wf (m : Memory) : Bool := Memory.wfFrom 0 m

/-- `MemRead(addr, 1)`: the byte, or `AddressError` from 256 upward; addresses never wrap (R52). -/
def State.memRead (s : State) (a : Nat) : Except FaultKind Byte :=
  if a < memSize then .ok (s.mem.read a) else .error .addressError

/-- `MemWrite(addr, 1, v)`: an 8-bit address is always in range (R53). -/
def State.memWrite (s : State) (a : Addr) (v : Byte) : State :=
  { s with mem := s.mem.write a.toNat v }

/-- Store bytes from an address upward, one cell each (R61); a byte past the top of memory has no cell. -/
def State.storeBytes (s : State) (a : Nat) : List Byte → State
  | [] => s
  | b :: bs =>
    if a < memSize then State.storeBytes { s with mem := s.mem.write a b } (a + 1) bs else s

/-! ## Registers -/

/-- The index of a register of the file. -/
abbrev RegIndex := Fin numRegs

/-- Read `x[r]` (R21). -/
def State.readReg (s : State) (r : RegIndex) : Byte := s.x[r]

/-- `x[r] <- v` (R21, R22). -/
def State.writeReg (s : State) (r : RegIndex) (v : Byte) : State :=
  { s with x := s.x.set r v }

/-- `sp <- v` (R28). -/
def State.setSp (s : State) (v : Addr) : State := { s with sp := v }

/-- `fl <- v` (R31). -/
def State.setFl (s : State) (v : Byte) : State := { s with fl := v }

/-- `Emit(v)`: append to the output channel (R37). -/
def State.emit (s : State) (v : Byte) : State := { s with out := s.out ++ [v] }

/-- `running <- 0`, the effect of HALT (R33, R130). -/
def State.stop (s : State) : State := { s with running := false }

/-- Sequential advance, `pc <- pc + len` (R26). -/
def State.advance (s : State) (len : Pc) : State := { s with pc := s.pc + len }

/-- A taken jump, `pc <- zext_9(v)` (R26, R180). -/
def State.jumpTo (s : State) (v : Byte) : State := { s with pc := v.setWidth 9 }

/-! ## Faults -/

/-- The 3-bit code of a fault kind (R34, R200). -/
def FaultKind.code : FaultKind → BitVec 3
  | .decodeError => 1
  | .registerIndexError => 2
  | .stackOverflow => 3
  | .stackUnderflow => 4
  | .addressError => 5

/-- The `err` register as its 3-bit code, 0 when no fault has occurred (R34). -/
def State.errCode (s : State) : BitVec 3 :=
  match s.err with
  | none => 0
  | some k => k.code

/-- What a fault does: `running <- 0`, `err <- code(k)`, nothing else. Nothing is saved, there is no
vector and no handler, and no return: only reset leaves the state (R207, R208, R212). -/
def State.raise (s : State) (k : FaultKind) : State := { s with running := false, err := some k }

/-- Go on with the value of a check, or raise its fault in the unchanged state (R116, R207). -/
def State.attempt {α : Type} (s : State) (e : Except FaultKind α) (k : α → Result) : Result :=
  match e with
  | .ok v => k v
  | .error f => .next (s.raise f)

/-! ## Fetch -/

/-- Up to `n` bytes from address `a` upward, ending before the first read that raises (R52). -/
def State.bytesFrom (s : State) (a : Nat) : Nat → List Byte
  | 0 => []
  | n + 1 =>
    match s.memRead a with
    | .ok b => b :: s.bytesFrom (a + 1) n
    | .error _ => []

/-- The bytes an instruction at `pc` can occupy: reads have no side effect (R58), so offering them all to
the decoder, which takes as many as the row's format has (R114), is the fetch as needed of R55. -/
def State.window (s : State) : List Byte := s.bytesFrom s.pc.toNat maxLength

/-- Fetch and decode: the lines `let op`, `let e`, `let a`, `let b` of R111, with the faults of R112, R113
and R114. -/
def State.fetch (c : Config) (s : State) : Except FaultKind Instr :=
  match decode c s.window with
  | .ok i _ => .ok i
  | .noOpcode => .error .addressError
  | .unrecognized => .error .decodeError
  | .missingOperand => .error .addressError

end Sys2Proof.Machine
end

