-- ==== Sys2Proof/Machine/Operands.lean ====
section
/-! DEFINITION. The operand forms: a register index and an immediate (30_encoding.md R87, R88). -/

namespace Sys2Proof.Machine

/-- `Reg(v)`: the whole byte is the index; 8 .. 255 raise `RegisterIndexError`, never masked (R88). -/
def regOperand (v : Byte) : Except FaultKind RegIndex :=
  if h : v.toNat < numRegs then .ok ⟨v.toNat, h⟩ else .error .registerIndexError

/-- The immediate: the byte as it stands, unsigned, not extended or scaled (R87). -/
def immediate (v : Byte) : Byte := v

end Sys2Proof.Machine
end

