-- ==== Sys2Proof/Machine/Alu.lean ====
section
/-! DEFINITION. The ALU's arithmetic and the instructions MULTIPLY, COMPARE, ADD, SUBTRACT (43_alu.md). -/

namespace Sys2Proof.Machine

/-- `alu_mul(u, v) = (u * v) mod 256` (R151). -/
def aluMul (u v : Byte) : Byte := BitVec.ofNat 8 (u.toNat * v.toNat % 256)

/-- `alu_add(u, v) = (u + v) mod 256` (R153). -/
def aluAdd (u v : Byte) : Byte := BitVec.ofNat 8 ((u.toNat + v.toNat) % 256)

/-- `alu_sub(u, v)`: `u - v`, or `u - v + 256` when `u < v` (R153). -/
def aluSub (u v : Byte) : Byte :=
  BitVec.ofNat 8 (if u.toNat < v.toNat then u.toNat + 256 - v.toNat else u.toNat - v.toNat)

/-- Check both register operands, `a` before `b`, and replace `x[A]` by the function of `x[A]` and `x[B]`,
both read before the write (R154, R157, R158). -/
def aluInPlace (f : Byte → Byte → Byte) (a b : Byte) (s : State) : Result :=
  s.attempt (regOperand a) fun rA =>
    s.attempt (regOperand b) fun rB =>
      .next ((s.writeReg rA (f (s.readReg rA) (s.readReg rB))).advance 3)

/-- MULTIPLY: `x[A] <- alu_mul(x[A], x[B])`; no flag is written (R154). -/
def execMultiply (a b : Byte) (s : State) : Result := aluInPlace aluMul a b s

/-- COMPARE: `fl <- alu_cmp(x[A], x[B])`, the whole register (R155). -/
def execCompare (a b : Byte) (s : State) : Result :=
  s.attempt (regOperand a) fun rA =>
    s.attempt (regOperand b) fun rB =>
      .next ((s.setFl (aluCmp (s.readReg rA) (s.readReg rB))).advance 3)

/-- ADD: `x[A] <- alu_add(x[A], x[B])`; an instruction only when `EXT_ADDSUB` is true, which the decoder
decides (R156, R157; log entry 3). -/
def execAdd (a b : Byte) (s : State) : Result := aluInPlace aluAdd a b s

/-- SUBTRACT: `x[A] <- alu_sub(x[A], x[B])`; an instruction only when `EXT_ADDSUB` is true, which the
decoder decides (R156, R158; log entry 3). -/
def execSubtract (a b : Byte) (s : State) : Result := aluInPlace aluSub a b s

end Sys2Proof.Machine
end

