-- ==== Sys2Proof/Machine/Branch.lean ====
section
/-! DEFINITION. JUMP, JUMP_IF_EQUAL, JUMP_IF_NOT_EQUAL (45_branch.md). -/

namespace Sys2Proof.Machine

/-- Jump through a register when the condition holds, else fall through; the operand is checked in both
cases (R181, R182). -/
def branchIf (taken : Bool) (a : Byte) (s : State) : Result :=
  s.attempt (regOperand a) fun r =>
    if taken then .next (s.jumpTo (s.readReg r)) else .next (s.advance 2)

/-- JUMP: `pc <- zext_9(x[r])`, with no advance (R180). -/
def execJump (a : Byte) (s : State) : Result :=
  s.attempt (regOperand a) fun r => .next (s.jumpTo (s.readReg r))

/-- JUMP_IF_EQUAL: taken when bit 0 of `fl` is set (R181). -/
def execJumpIfEqual (a : Byte) (s : State) : Result := branchIf (equalBit s.fl) a s

/-- JUMP_IF_NOT_EQUAL: taken when bit 0 of `fl` is clear (R182). -/
def execJumpIfNotEqual (a : Byte) (s : State) : Result := branchIf (!equalBit s.fl) a s

end Sys2Proof.Machine
end

