-- ==== Sys2Proof/Machine/DataMove.lean ====
section
/-! DEFINITION. LOAD_IMMEDIATE (42_load_immediate.md). -/

namespace Sys2Proof.Machine

/-- LOAD_IMMEDIATE: `x[r] <- b` (R140). -/
def execLoadImmediate (a value : Byte) (s : State) : Result :=
  s.attempt (regOperand a) fun r => .next ((s.writeReg r (immediate value)).advance 3)

end Sys2Proof.Machine
end

