-- ==== Sys2Proof/Machine/Stack.lean ====
section
/-! DEFINITION. PUSH and POP (44_stack.md). -/

namespace Sys2Proof.Machine

/-- The stack check of PUSH: `StackOverflow` when `sp` = 0 (R170, R203). -/
def State.pushCheck (s : State) : Except FaultKind Unit :=
  if s.sp = 0 then .error .stackOverflow else .ok ()

/-- The stack check of POP: `StackUnderflow` when `sp` = `SP_INIT` (R171, R204). -/
def State.popCheck (s : State) : Except FaultKind Unit :=
  if s.sp = spInit then .error .stackUnderflow else .ok ()

/-- PUSH: decrement, then store at the new `sp` (R170). -/
def execPush (a : Byte) (s : State) : Result :=
  s.attempt (regOperand a) fun r =>
    s.attempt s.pushCheck fun _ =>
      .next (((s.setSp (s.sp - 1)).memWrite (s.sp - 1) (s.readReg r)).advance 2)

/-- POP: load from `sp`, then increment (R171).
DESIGN CHOICE (log entry 7): with `sp` = 255, which no run reaches (R29), `sp + 1` is 0. -/
def execPop (a : Byte) (s : State) : Result :=
  s.attempt (regOperand a) fun r =>
    s.attempt s.popCheck fun _ =>
      s.attempt (s.memRead s.sp.toNat) fun v =>
        .next (((s.writeReg r v).setSp (s.sp + 1)).advance 2)

end Sys2Proof.Machine
end

