-- ==== Sys2Proof/Machine/System.lean ====
section
/-! DEFINITION. HALT and PRINT_REG (41_system.md). -/

namespace Sys2Proof.Machine

/-- HALT: `running <- 0; pc <- pc + 1` (R130). -/
def execHalt (s : State) : Result := .next (s.stop.advance 1)

/-- PRINT_REG: append `x[r]` to the output channel (R131). -/
def execPrintReg (a : Byte) (s : State) : Result :=
  s.attempt (regOperand a) fun r => .next ((s.emit (s.readReg r)).advance 2)

end Sys2Proof.Machine
end

