-- ==== Sys2Proof/Machine/Step.lean ====
section
/-! DEFINITION. One step of the fetch-decode-execute loop (40_step.md R111), and placing a word where the
next step fetches. -/

namespace Sys2Proof.Machine

/-- The step of an engine with parameters `c` (R111); with `running` = 0 it does nothing (R120). -/
def stepWith (c : Config) (s : State) : Host.Outcome State Fault Refusal :=
  if s.running then s.attempt (s.fetch c) fun i => exec i s else .next s

/-- The step of this hardware. -/
def step (s : State) : Host.Outcome State Fault Refusal := stepWith Config.hardware s

/-- The state with a table word stored where the next step fetches. It stands for the host's `load`
(R61) at `pc`; a fetch also needs `running` = 1 (R111), so that is set (log entry 10). -/
def State.withFetchWord (s : State) (nbits w : Nat) : State :=
  { s.storeBytes s.pc.toNat (tableBytes nbits w) with running := true }

end Sys2Proof.Machine
end

