-- ==== Sys2Proof/Machine/Accesses.lean ====
section
/-! DEFINITION. The memory interface: the accesses of one step, in order (20_memory.md R51, R54, R55). It
stands beside the step, which performs exactly these; the access list is not state (R39). -/

namespace Sys2Proof.Machine

/-- One access of one byte (R51). -/
inductive Access where
  | read (a : Nat)
  | write (a : Nat) (v : Byte)
deriving DecidableEq, Repr

/-- How many bytes a step fetches for an opcode byte: its row's length, and the opcode byte alone when it
is unrecognised (R54). -/
def fetchLength (c : Config) (op : Byte) : Nat :=
  match decodeOpcode c op with
  | some m => m.length
  | none => 1

/-- The addresses a fetch reads: the opcode's, then one per operand byte, as far as memory goes; the read
that raises `AddressError` reads no cell (R52, R55). -/
def State.fetchReads (c : Config) (s : State) : List Nat :=
  ((List.range (fetchLength c (s.mem.read s.pc.toNat))).map (s.pc.toNat + ·)).filter (· < memSize)

/-- The data access of an instruction: PUSH writes at `sp - 1`, POP reads at `sp`, when their checks pass;
no other instruction has one (R54). -/
def dataAccesses (i : Instr) (s : State) : List Access :=
  match i with
  | .push a =>
    match regOperand a, s.pushCheck with
    | .ok r, .ok _ => [.write (s.sp - 1).toNat (s.readReg r)]
    | _, _ => []
  | .pop a =>
    match regOperand a, s.popCheck with
    | .ok _, .ok _ => [.read s.sp.toNat]
    | _, _ => []
  | _ => []

/-- The accesses of one step, in the order of R55; a halted engine makes none (R120). -/
def State.accesses (c : Config) (s : State) : List Access :=
  if s.running then
    (s.fetchReads c).map .read ++
      (match s.fetch c with
      | .ok i => dataAccesses i s
      | .error _ => [])
  else []

/-- What a list of accesses does to memory: the writes, in order. -/
def Memory.applyAccesses (m : Memory) : List Access → Memory
  | [] => m
  | .read _ :: l => m.applyAccesses l
  | .write a v :: l => Memory.applyAccesses (m.write a v) l

end Sys2Proof.Machine
end

