-- ==== Sys2Proof/Machine/HostInterface.lean ====
section
/-! DEFINITION. The interface between the host and the engine (70_reset_and_hazards.md R230 to R235;
20_memory.md R61, R62; 40_step.md R110, R119, R120; 10_state.md R37). The host acts only while the engine
is not stepping (00_scope.md R4). -/

namespace Sys2Proof.Machine

/-- The engine between two actions of the host, and whether a `load` may still be invoked: only after a
reset, before `run`, and at most once (R61). -/
structure Session where
  engine : State
  canLoad : Bool
deriving DecidableEq, Repr

/-- Reset, from any state: everything returns to its reset value, memory and output included
(R230, R232). -/
def Session.reset (_ : Session) : Session := { engine := State.reset, canLoad := true }

/-- What `load` gives back. -/
inductive LoadOutcome where
  /-- The image is in memory (R61). -/
  | success (s : Session)
  /-- `LoadError`: a reported result; the engine is unchanged (R62, R209). -/
  | loadError (s : Session)
  /-- The request has no meaning: a second `load`, or one after `run` (R234, U10). Safe: the model has no
  such move. -/
  | refused
deriving DecidableEq, Repr

/-- `load(image)` (R61, R62).
DESIGN CHOICE (log entry 11): an invocation that ends in `LoadError` is the one that R61 permits. -/
def Session.load (image : List Byte) (s : Session) : LoadOutcome :=
  if s.canLoad then
    if 1 ≤ image.length ∧ image.length ≤ memSize then
      .success { engine := s.engine.storeBytes 0 image, canLoad := false }
    else .loadError { s with canLoad := false }
  else .refused

/-- Iterate the step while `running` = 1, for at most `fuel` steps; none when the fuel ends first. The fuel
is the executor's, not the machine's (R110, R119, D19). -/
def State.runFor (c : Config) : Nat → State → Option State
  | 0, s => if s.running then none else some s
  | n + 1, s =>
    if s.running then
      match stepWith c s with
      | .next t => State.runFor c n t
      | .fault _ => none
      | .refused _ => none
    else some s

/-- `run()`: permitted after `load`, and with the same rules without one (R110, R234 (a)). -/
def Session.run (c : Config) (fuel : Nat) (s : Session) : Option Session :=
  (s.engine.runFor c fuel).map fun t => { engine := t, canLoad := false }

/-- Read status: `running` and the code in `err` (R208, R235). -/
def State.statusPair (s : State) : Bool × BitVec 3 := (s.running, s.errCode)

/-- A decimal digit. -/
def digitChar (n : Nat) : Char := Char.ofNat (48 + n)

/-- The decimal numeral of a byte without leading zeros (R37, D11). -/
def decimal (v : Byte) : List Char :=
  let n := v.toNat
  if n < 10 then [digitChar n]
  else if n < 100 then [digitChar (n / 10), digitChar (n % 10)]
  else [digitChar (n / 100), digitChar (n / 10 % 10), digitChar (n % 10)]

/-- Read output: each value as its decimal numeral and one newline, oldest first (R37, R235). -/
def State.outputText (s : State) : List Char := s.out.flatMap fun v => decimal v ++ ['\n']

end Sys2Proof.Machine
end

