-- ==== Sys2Proof/Safety.lean ====
section
/-! DEFINITION. What counts as a good run: halted clean against faulted (10_state.md R35, 60_exceptions.md
R222), and the invariant of the reachable states (R25, R29, R32, R34, R35). -/

namespace Sys2Proof.Machine

/-- RUNNING, and the two parts of HALTED (R35). -/
inductive Condition where
  | running
  | haltedClean
  | faulted (k : FaultKind)
deriving DecidableEq, Repr

/-- The condition of the engine (R33, R35). -/
def State.condition (s : State) : Condition :=
  if s.running then .running
  else
    match s.err with
    | none => .haltedClean
    | some k => .faulted k

/-- The outcome of a step as R222 counts them; a faulted state is never a completed one. -/
inductive StepOutcome where
  | completed (t : State)
  | fault (k : FaultKind)
deriving DecidableEq, Repr

/-- The outcome of a step that ended in `t`, taken from a state with no error (R222). -/
def State.outcome (t : State) : StepOutcome :=
  match t.err with
  | none => .completed t
  | some k => .fault k

/-- A run ended well: stopped, and without an error (R121). -/
def State.EndedWell (t : State) : Prop := t.running = false ∧ t.err = none

/-- What holds in every reachable state: memory in canonical form, `pc` at most 256 (R25), `sp` at most
`SP_INIT` (R29), `fl` 0, 1, 2 or 4 (R32), and no error while running (R35). -/
structure State.Inv (s : State) : Prop where
  mem_wf : s.mem.wf = true
  pc_le : s.pc.toNat ≤ memSize
  sp_le : s.sp.toNat ≤ spInit.toNat
  fl_mem : s.fl = 0 ∨ s.fl = 1 ∨ s.fl = 2 ∨ s.fl = 4
  no_err : s.running = true → s.err = none

/-- `n` steps of an engine with parameters `c`. -/
def State.stepsTo (c : Config) : Nat → State → State → Prop
  | 0, s, t => s = t
  | n + 1, s, t => ∃ u, stepWith c s = .next u ∧ State.stepsTo c n u t

end Sys2Proof.Machine
end

