-- ==== Sys2Proof/Certificates/Slice0/Obligations.lean ====
section
/-! DEFINITION. The statements for the provers, each formalising numbered rules of spec/. They are stated
over every parameter value `c` that the rule allows (00_scope.md R5, R6; D1), not over the default opcode
bytes; `step` is `stepWith Config.hardware`. -/

open Sys2Proof Sys2Proof.Machine

/-! ## Words the statements share -/

/-- The state a fault of kind `k` leaves: `running` is 0, `err` is the kind, all else as before (R207). That
a step answers it as a next state is the host interface's `next` (log entry 1). -/
def Sys2Proof.Claims.faulted (s : State) (k : FaultKind) : State :=
  { s with running := false, err := some k }

/-- A running engine whose opcode byte at `pc`, inside memory, is the one `op` names in `c`; the row is in
the dispatch table, which for ADD and SUBTRACT (`ext`) needs `EXT_ADDSUB` (R83, R84). -/
def Sys2Proof.Claims.AtOpcode (ext : Bool) (op : Config → Byte) (c : Config) (s : State) : Prop :=
  c.Valid ∧ (ext = true → c.extAddSub = true) ∧ s.running = true ∧ s.pc.toNat < 256 ∧
    s.mem.read s.pc.toNat = op c

/-- The one-byte instruction `i` is encoded by the opcode byte `op` alone, and a step at it runs it. -/
def Sys2Proof.Claims.RunsAsF0 (op : Config → Byte) (i : Instr) : Prop :=
  ∀ (c : Config) (s : State), Claims.AtOpcode false op c s → stepWith c s = exec i s

/-- The two-byte instruction `mk a` is encoded `op`, `a`, and a step at it runs it; with the opcode byte at
255 the operand fetch raises `AddressError`. -/
def Sys2Proof.Claims.RunsAsF1 (op : Config → Byte) (mk : Byte → Instr) : Prop :=
  ∀ (c : Config) (s : State), Claims.AtOpcode false op c s →
    (s.pc.toNat ≤ 254 → stepWith c s = exec (mk (s.mem.read (s.pc.toNat + 1))) s) ∧
    (s.pc.toNat = 255 → stepWith c s = .next (Claims.faulted s .addressError))

/-- The three-byte instruction `mk a b` is encoded `op`, `a`, `b`, and a step at it runs it; with the opcode
byte at 254 or 255 the operand fetch raises `AddressError`. -/
def Sys2Proof.Claims.RunsAsF2 (ext : Bool) (op : Config → Byte) (mk : Byte → Byte → Instr) : Prop :=
  ∀ (c : Config) (s : State), Claims.AtOpcode ext op c s →
    (s.pc.toNat ≤ 253 →
      stepWith c s = exec (mk (s.mem.read (s.pc.toNat + 1)) (s.mem.read (s.pc.toNat + 2))) s) ∧
    (254 ≤ s.pc.toNat → stepWith c s = .next (Claims.faulted s .addressError))

/-- The bytes of `i` stand in memory from `pc` upward, all of them below address 256. -/
def Sys2Proof.Claims.HoldsAtPc (c : Config) (s : State) (i : Instr) : Prop :=
  s.pc.toNat + i.length ≤ 256 ∧
    ∀ k v, (encode c i)[k]? = some v → s.mem.read (s.pc.toNat + k) = v

/-! ## Encoding -/

/-- Decoding the encoding of an instruction gives it back with every operand byte, and leaves the bytes that
follow, in every instance whose opcode bytes are distinct (R6, R81, R83, R84, R85, R89). -/
def Obligations.DecodeOfEncodeIsIdentity : Prop :=
  ∀ (c : Config), c.Valid → ∀ (i : Instr) (rest : List Byte), c.hasInstr i = true →
    decode c (encode c i ++ rest) = .ok i rest

/-- What the decoder accepts is exactly the encoding of the instruction it answers, followed by the bytes it
leaves, and the instruction exists in the instance: each byte sequence has one meaning. -/
def Obligations.DecodedBytesAreTheEncoding : Prop :=
  ∀ (c : Config) (bs : List Byte) (i : Instr) (rest : List Byte), decode c bs = .ok i rest →
    bs = encode c i ++ rest ∧ c.hasInstr i = true

/-- Decoding an opcode byte (R85) finds the row whose opcode byte equals it, all eight bits compared, and is
unrecognised when there is none; with the defaults 10 byte values are recognised and 246 are not. -/
def Obligations.OpcodeDecodeIsTotalLookup : Prop :=
  (∀ (c : Config), c.Valid → ∀ (op : Byte) (m : Mnemonic),
    decodeOpcode c op = some m ↔ m ∈ dispatchTable c ∧ m.opcode c = op) ∧
  (∀ (c : Config) (op : Byte),
    decodeOpcode c op = none ↔ ∀ m ∈ dispatchTable c, m.opcode c ≠ op) ∧
  ((List.range 256).filter fun n =>
    (decodeOpcode Config.hardware (BitVec.ofNat 8 n)).isSome).length = 10 ∧
  ((List.range 256).filter fun n =>
    (decodeOpcode Config.hardware (BitVec.ofNat 8 n)).isNone).length = 246

/-- The length of an instruction is known from its opcode byte alone, whatever follows it, and is 1, 2
or 3; an unrecognised opcode byte is rejected whatever follows it. -/
def Obligations.LengthIsFixedByTheOpcode : Prop :=
  ∀ (c : Config) (op : Byte) (bs bs' : List Byte),
    (∀ i rest i' rest', decode c (op :: bs) = .ok i rest → decode c (op :: bs') = .ok i' rest' →
      i.length = i'.length ∧ i.mnemonic = i'.mnemonic) ∧
    (∀ i rest, decode c (op :: bs) = .ok i rest →
      (i.length = 1 ∨ i.length = 2 ∨ i.length = 3) ∧ rest = (op :: bs).drop i.length) ∧
    (decode c (op :: bs) = .unrecognized → decode c (op :: bs') = .unrecognized)

/-- A word of each row, written out bit by bit from the encoding tables, decodes to what it stands for, and
two words that are no instruction of this hardware are rejected (a sanity statement). The opcode bytes are the
default values of R5 and R83, which the spec takes from general knowledge (log entry 2). -/
def Obligations.SampleWordsDecode : Prop :=
  decode Config.hardware [0b00000001] = .ok .halt [] ∧
  decode Config.hardware [0b10000010, 0b00000000, 0b00001001] = .ok (.loadImmediate 0 9) [] ∧
  decode Config.hardware [0b01000111, 0b00000111] = .ok (.printReg 7) [] ∧
  decode Config.hardware [0b10100010, 0b00000001, 0b00000000] = .ok (.multiply 1 0) [] ∧
  decode Config.hardware [0b01000101, 0b00000011] = .ok (.push 3) [] ∧
  decode Config.hardware [0b01000110, 0b00000101] = .ok (.pop 5) [] ∧
  decode Config.hardware [0b10100111, 0b00000001, 0b00000000] = .ok (.compare 1 0) [] ∧
  decode Config.hardware [0b01010100, 0b00000010] = .ok (.jump 2) [] ∧
  decode Config.hardware [0b01010101, 0b00000010] = .ok (.jumpIfEqual 2) [] ∧
  decode Config.hardware [0b01010110, 0b00000010] = .ok (.jumpIfNotEqual 2) [] ∧
  decode { Config.hardware with extAddSub := true } [0b10100000, 0b00000000, 0b00000001] =
    .ok (.add 0 1) [] ∧
  decode { Config.hardware with extAddSub := true } [0b10100001, 0b00000000, 0b00000001] =
    .ok (.subtract 0 1) [] ∧
  decode Config.hardware [0b00000000, 0b00000000] = .unrecognized ∧
  decode Config.hardware [0b10100000, 0b00000000, 0b00000001] = .unrecognized

/-- A table word placed where the next step fetches is the instruction that step runs. That placing it also
sets `running` is the model's choice (log entry 10). -/
def Obligations.PlacedWordIsTheOneExecuted : Prop :=
  ∀ (s : State) (nbits w : Nat) (i : Instr), s.mem.wf = true → s.pc.toNat ≤ 253 →
    decodeTableWord nbits w = some i →
    step (s.withFetchWord nbits w) = exec i (s.withFetchWord nbits w)

/-! ## The step -/

/-- Fetch, decode, execute (R111, R115): when the bytes at `pc` are those of an instruction of the instance, a
step of a running engine is `exec` of that instruction in that state, nothing added around it, in the instance
of this hardware as in every other. -/
def Obligations.StepRunsTheDecodedInstruction : Prop :=
  (∀ (c : Config) (s : State) (i : Instr), c.Valid → c.hasInstr i = true → s.running = true →
    Claims.HoldsAtPc c s i → stepWith c s = exec i s) ∧
  (∀ (s : State) (i : Instr), Config.hardware.hasInstr i = true → s.running = true →
    Claims.HoldsAtPc Config.hardware s i → step s = exec i s)

/-- R205: the fault a step raises is the first of the order: `AddressError` on the opcode fetch, then
`DecodeError`, then `AddressError` on an operand fetch, then `RegisterIndexError`, then the stack's. -/
def Obligations.FaultPriority : Prop :=
  ∀ (c : Config) (s : State), s.running = true →
    (256 ≤ s.pc.toNat → stepWith c s = .next (Claims.faulted s .addressError)) ∧
    (s.pc.toNat < 256 →
      (decodeOpcode c (s.mem.read s.pc.toNat) = none →
        stepWith c s = .next (Claims.faulted s .decodeError)) ∧
      (∀ m, decodeOpcode c (s.mem.read s.pc.toNat) = some m →
        (256 < s.pc.toNat + m.length → stepWith c s = .next (Claims.faulted s .addressError)) ∧
        (s.pc.toNat + m.length ≤ 256 →
          ∃ i, i.mnemonic = m ∧ Claims.HoldsAtPc c s i ∧
            (i.wellFormed = false →
              stepWith c s = .next (Claims.faulted s .registerIndexError)) ∧
            (i.wellFormed = true → m = .push → s.sp = 0 →
              stepWith c s = .next (Claims.faulted s .stackOverflow)) ∧
            (i.wellFormed = true → m = .pop → s.sp = spInit →
              stepWith c s = .next (Claims.faulted s .stackUnderflow)) ∧
            (i.wellFormed = true → (m = .push → s.sp ≠ 0) → (m = .pop → s.sp ≠ spInit) →
              ∃ t, stepWith c s = .next t ∧ t.err = s.err))))

/-- R112: the opcode is the byte at `pc`; with `pc` = 256 the read raises `AddressError` and the step ends as
a fault. -/
def Obligations.OpcodeFetchReadsAtPc : Prop :=
  ∀ (c : Config) (s : State), s.running = true →
    (s.pc.toNat < 256 → s.window.head? = some (s.mem.read s.pc.toNat)) ∧
    (s.pc = 256 → stepWith c s = .next (Claims.faulted s .addressError))

/-- R113: an opcode byte with no row raises `DecodeError` (code 1), whatever bytes follow it; no operand byte
is read, and no register, memory byte, `pc`, `sp`, `fl` or output changes. -/
def Obligations.UnrecognizedOpcodeFaults : Prop :=
  ∀ (c : Config) (s : State), s.running = true → s.pc.toNat < 256 →
    (∀ m ∈ dispatchTable c, m.opcode c ≠ s.mem.read s.pc.toNat) →
    stepWith c s = .next (Claims.faulted s .decodeError) ∧
    (Claims.faulted s .decodeError).errCode = 1 ∧ s.accesses c = [.read s.pc.toNat]

/-- R114: after a successful decode the step reads the operand bytes of the format and no others; it ends in
`AddressError` exactly when an F1 instruction stands at 255, or an F2 instruction at 254 or 255; a HALT at
255 executes. The equivalence is stated for a state without an earlier error. -/
def Obligations.OperandFetchFaultsExactlyAtTheTop : Prop :=
  ∀ (c : Config) (s : State) (m : Mnemonic), s.running = true → s.err = none → s.pc.toNat < 256 →
    decodeOpcode c (s.mem.read s.pc.toNat) = some m →
    (stepWith c s = .next (Claims.faulted s .addressError) ↔
      (m.format = .f1 ∧ s.pc.toNat = 255) ∨
      (m.format = .f2 ∧ (s.pc.toNat = 254 ∨ s.pc.toNat = 255))) ∧
    (∀ n, n ∈ s.fetchReads c ↔
      n < 256 ∧ s.pc.toNat ≤ n ∧ n ≤ s.pc.toNat + m.format.operands) ∧
    (m = .halt → stepWith c s = exec .halt s)

/-- R120: with `running` = 0 a further step or `run` request does nothing, halted clean or faulted. -/
def Obligations.HaltedEngineDoesNothing : Prop :=
  ∀ (c : Config) (s : State), s.running = false →
    stepWith c s = .next s ∧ step s = .next s ∧
    ∀ (fuel : Nat) (b : Bool),
      Session.run c fuel { engine := s, canLoad := b } = some { engine := s, canLoad := false }

/-- A step (R116, R207) from a running state without error either completes an instruction, leaving no
error, or leaves the state before it except that `running` is 0 and `err` holds the fault; never both. -/
def Obligations.StepIsAllOrNothing : Prop :=
  ∀ (c : Config) (s : State), s.running = true → s.err = none →
    ∃ t, stepWith c s = .next t ∧
      ((∃ i rest, decode c s.window = .ok i rest ∧ exec i s = .next t ∧ t.outcome = .completed t) ∨
        (∃ k, t = Claims.faulted s k ∧ t.outcome = .fault k))

/-- A step, once begun, completes or faults; it cannot block (R247). So, faults being next states (the model's
choice of outcome, log entry 1), it is never without a next state, for any instruction, operands and state. -/
def Obligations.EveryStepHasANextState : Prop :=
  (∀ (c : Config) (s : State), ∃ t, stepWith c s = .next t) ∧
  (∀ (i : Instr) (s : State), ∃ t, exec i s = .next t)

/-- R26: an instruction that completes writes `pc` once: the length of the instruction is added, or the
register of a taken jump is copied; a step that raises a fault leaves `pc`. -/
def Obligations.PcAdvancesOrJumps : Prop :=
  (∀ (c : Config) (s t : State), s.err = none → stepWith c s = .next t → t.err ≠ none → t.pc = s.pc) ∧
  (∀ (i : Instr) (s t : State), s.err = none → exec i s = .next t → t.err = none →
    s.pc.toNat + i.length ≤ 256 →
      (t.pc.toNat = s.pc.toNat + i.length ∧
        (∀ a, i ≠ .jump a) ∧
        (∀ a, i = .jumpIfEqual a → s.fl.getLsbD 0 = false) ∧
        (∀ a, i = .jumpIfNotEqual a → s.fl.getLsbD 0 = true)) ∨
      (∃ (a : Byte) (ha : a.toNat < 8), t.pc.toNat = s.x[a.toNat].toNat ∧
        (i = .jump a ∨ (i = .jumpIfEqual a ∧ s.fl.getLsbD 0 = true) ∨
          (i = .jumpIfNotEqual a ∧ s.fl.getLsbD 0 = false))))

/-! ## The instructions: result, frame, faults, encoding -/

/-- R130: HALT clears `running` and advances `pc` by 1, and changes nothing else; it is encoded by its opcode
byte alone; after it no step changes anything; no other instruction clears `running` as its effect. -/
def Obligations.HaltStopsTheEngine : Prop :=
  (∀ (s : State), s.pc.toNat + 1 ≤ 256 →
    exec .halt s = .next { s with running := false, pc := s.pc + 1 }) ∧
  Claims.RunsAsF0 Config.opcHalt .halt ∧
  (∀ (c : Config) (s t : State), exec .halt s = .next t → stepWith c t = .next t) ∧
  (∀ (i : Instr) (s t : State), s.running = true → exec i s = .next t → t.running = false →
    i = .halt ∨ ∃ k, t = Claims.faulted s k)

/-- R140: LOAD_IMMEDIATE sets the register to the whole immediate byte, `pc` advances by 3, nothing else
changes; a register operand from 8 upward is `RegisterIndexError`. -/
def Obligations.LoadImmediateSetsRegister : Prop :=
  (∀ (s : State) (a v : Byte) (ha : a.toNat < 8), s.pc.toNat + 3 ≤ 256 →
    exec (.loadImmediate a v) s = .next { s with x := s.x.set a.toNat v ha, pc := s.pc + 3 }) ∧
  (∀ (s : State) (a v : Byte), 8 ≤ a.toNat →
    exec (.loadImmediate a v) s = .next (Claims.faulted s .registerIndexError)) ∧
  Claims.RunsAsF2 false Config.opcLoadImmediate .loadImmediate

/-- R131: PRINT_REG appends the register's value to the output channel, `pc` advances by 2, nothing else
changes; after LOAD_IMMEDIATE of the same register it emits exactly the loaded value. -/
def Obligations.PrintRegEmitsRegister : Prop :=
  (∀ (s : State) (a : Byte) (ha : a.toNat < 8), s.pc.toNat + 2 ≤ 256 →
    exec (.printReg a) s = .next { s with out := s.out ++ [s.x[a.toNat]], pc := s.pc + 2 }) ∧
  (∀ (s : State) (a : Byte), 8 ≤ a.toNat →
    exec (.printReg a) s = .next (Claims.faulted s .registerIndexError)) ∧
  (∀ (s t u : State) (a v : Byte), a.toNat < 8 → exec (.loadImmediate a v) s = .next t →
    exec (.printReg a) t = .next u → u.out = s.out ++ [v]) ∧
  Claims.RunsAsF1 Config.opcPrintReg .printReg

/-- R154: MULTIPLY replaces `x[A]` by `x[A] * x[B]` mod 256, both read before the write (so A = B squares),
`pc` advances by 3, nothing else changes, no flag among it. -/
def Obligations.MultiplyWritesWrappedProduct : Prop :=
  (∀ (s : State) (a b : Byte) (ha : a.toNat < 8) (_ : b.toNat < 8), s.pc.toNat + 3 ≤ 256 →
    exec (.multiply a b) s = .next { s with
      x := s.x.set a.toNat (BitVec.ofNat 8 (s.x[a.toNat].toNat * s.x[b.toNat].toNat % 256)) ha,
      pc := s.pc + 3 }) ∧
  (∀ (s : State) (a b : Byte), 8 ≤ a.toNat ∨ 8 ≤ b.toNat →
    exec (.multiply a b) s = .next (Claims.faulted s .registerIndexError)) ∧
  Claims.RunsAsF2 false Config.opcMultiply .multiply

/-- R155: COMPARE writes the whole of `fl`: 1 if equal, 2 if `x[A]` is greater, 4 if it is less, unsigned;
`pc` advances by 3, nothing else changes; any other instruction leaves `fl`. -/
def Obligations.CompareWritesTheFlagRegister : Prop :=
  (∀ (s : State) (a b : Byte) (_ : a.toNat < 8) (_ : b.toNat < 8), s.pc.toNat + 3 ≤ 256 →
    exec (.compare a b) s = .next { s with
      fl := if s.x[a.toNat].toNat = s.x[b.toNat].toNat then 0b00000001
        else if s.x[b.toNat].toNat < s.x[a.toNat].toNat then 0b00000010 else 0b00000100,
      pc := s.pc + 3 }) ∧
  (∀ (s : State) (a b : Byte), 8 ≤ a.toNat ∨ 8 ≤ b.toNat →
    exec (.compare a b) s = .next (Claims.faulted s .registerIndexError)) ∧
  (∀ (i : Instr) (s t : State), (∀ a b, i ≠ .compare a b) → exec i s = .next t → t.fl = s.fl) ∧
  Claims.RunsAsF2 false Config.opcCompare .compare

/-- R170: PUSH decrements `sp` and stores the register at the new `sp`, the one byte of memory that changes;
`pc` advances by 2, nothing else changes; the register check comes before the stack check. -/
def Obligations.PushStoresBelowTheStackPointer : Prop :=
  (∀ (s : State) (a : Byte) (_ : a.toNat < 8), s.sp ≠ 0 → s.pc.toNat + 2 ≤ 256 →
    exec (.push a) s = .next { s with
      sp := s.sp - 1, mem := s.mem.write (s.sp - 1).toNat s.x[a.toNat], pc := s.pc + 2 }) ∧
  (∀ (s t : State) (a : Byte) (_ : a.toNat < 8), s.mem.wf = true → s.sp ≠ 0 →
    exec (.push a) s = .next t → t.sp.toNat = s.sp.toNat - 1 ∧
      ∀ n, t.mem.read n = if n = (s.sp - 1).toNat then s.x[a.toNat] else s.mem.read n) ∧
  (∀ (s : State) (a : Byte), 8 ≤ a.toNat →
    exec (.push a) s = .next (Claims.faulted s .registerIndexError)) ∧
  (∀ (s : State) (a : Byte), a.toNat < 8 → s.sp = 0 →
    exec (.push a) s = .next (Claims.faulted s .stackOverflow)) ∧
  Claims.RunsAsF1 Config.opcPush .push

/-- R171: POP loads the register from `sp` and increments `sp`; `pc` advances by 2, nothing else changes,
every byte of memory among it; the register check comes before the stack check. The hypothesis
`sp < SP_INIT` is the invariant of R29 and a stack that is not empty. -/
def Obligations.PopLoadsFromTheStackPointer : Prop :=
  (∀ (s : State) (a : Byte) (ha : a.toNat < 8), s.sp.toNat < 244 → s.pc.toNat + 2 ≤ 256 →
    exec (.pop a) s = .next { s with
      x := s.x.set a.toNat (s.mem.read s.sp.toNat) ha, sp := s.sp + 1, pc := s.pc + 2 } ∧
      (s.sp + 1).toNat = s.sp.toNat + 1) ∧
  (∀ (s : State) (a : Byte), 8 ≤ a.toNat →
    exec (.pop a) s = .next (Claims.faulted s .registerIndexError)) ∧
  (∀ (s : State) (a : Byte), a.toNat < 8 → s.sp = 0xF4 →
    exec (.pop a) s = .next (Claims.faulted s .stackUnderflow)) ∧
  Claims.RunsAsF1 Config.opcPop .pop

/-- R180: JUMP sets `pc` to the register's value, zero-extended, without an advance; nothing else changes; a
JUMP to its own address leaves the state as it was, so it loops for ever. -/
def Obligations.JumpGoesToTheRegister : Prop :=
  (∀ (s : State) (a : Byte) (_ : a.toNat < 8),
    exec (.jump a) s = .next { s with pc := BitVec.ofNat 9 s.x[a.toNat].toNat }) ∧
  (∀ (s : State) (a : Byte), 8 ≤ a.toNat →
    exec (.jump a) s = .next (Claims.faulted s .registerIndexError)) ∧
  (∀ (c : Config) (s : State), Claims.AtOpcode false Config.opcJump c s → s.pc.toNat ≤ 254 →
    ∀ h : (s.mem.read (s.pc.toNat + 1)).toNat < 8,
      s.x[(s.mem.read (s.pc.toNat + 1)).toNat].toNat = s.pc.toNat → stepWith c s = .next s) ∧
  Claims.RunsAsF1 Config.opcJump .jump

/-- R181: JUMP_IF_EQUAL jumps when bit 0 of `fl` is set and advances `pc` by 2 when it is clear; nothing else
changes; the operand is checked in both cases. -/
def Obligations.JumpIfEqualTestsBitZero : Prop :=
  (∀ (s : State) (a : Byte) (_ : a.toNat < 8), s.fl.getLsbD 0 = true →
    exec (.jumpIfEqual a) s = .next { s with pc := BitVec.ofNat 9 s.x[a.toNat].toNat }) ∧
  (∀ (s : State) (a : Byte), a.toNat < 8 → s.fl.getLsbD 0 = false → s.pc.toNat + 2 ≤ 256 →
    exec (.jumpIfEqual a) s = .next { s with pc := s.pc + 2 }) ∧
  (∀ (s : State) (a : Byte), 8 ≤ a.toNat →
    exec (.jumpIfEqual a) s = .next (Claims.faulted s .registerIndexError)) ∧
  Claims.RunsAsF1 Config.opcJumpIfEqual .jumpIfEqual

/-- R182: JUMP_IF_NOT_EQUAL jumps when bit 0 of `fl` is clear and advances `pc` by 2 when it is set; nothing
else changes; on one state it and JUMP_IF_EQUAL never both jump and never both fall through. -/
def Obligations.JumpIfNotEqualTestsBitZero : Prop :=
  (∀ (s : State) (a : Byte) (_ : a.toNat < 8), s.fl.getLsbD 0 = false →
    exec (.jumpIfNotEqual a) s = .next { s with pc := BitVec.ofNat 9 s.x[a.toNat].toNat }) ∧
  (∀ (s : State) (a : Byte), a.toNat < 8 → s.fl.getLsbD 0 = true → s.pc.toNat + 2 ≤ 256 →
    exec (.jumpIfNotEqual a) s = .next { s with pc := s.pc + 2 }) ∧
  (∀ (s : State) (a : Byte), 8 ≤ a.toNat →
    exec (.jumpIfNotEqual a) s = .next (Claims.faulted s .registerIndexError)) ∧
  (∀ (s : State) (a : Byte) (_ : a.toNat < 8), s.pc.toNat + 2 ≤ 256 →
    ∃ t u, exec (.jumpIfEqual a) s = .next t ∧ exec (.jumpIfNotEqual a) s = .next u ∧
      ((t.pc = BitVec.ofNat 9 s.x[a.toNat].toNat ∧ u.pc = s.pc + 2) ∨
        (t.pc = s.pc + 2 ∧ u.pc = BitVec.ofNat 9 s.x[a.toNat].toNat))) ∧
  Claims.RunsAsF1 Config.opcJumpIfNotEqual .jumpIfNotEqual

/-- R157: ADD, an instruction only when `EXT_ADDSUB` is true, replaces `x[A]` by `x[A] + x[B]` mod 256; `pc`
advances by 3, nothing else changes, no flag among it. -/
def Obligations.AddWritesWrappedSum : Prop :=
  (∀ (s : State) (a b : Byte) (ha : a.toNat < 8) (_ : b.toNat < 8), s.pc.toNat + 3 ≤ 256 →
    exec (.add a b) s = .next { s with
      x := s.x.set a.toNat (BitVec.ofNat 8 ((s.x[a.toNat].toNat + s.x[b.toNat].toNat) % 256)) ha,
      pc := s.pc + 3 }) ∧
  (∀ (s : State) (a b : Byte), 8 ≤ a.toNat ∨ 8 ≤ b.toNat →
    exec (.add a b) s = .next (Claims.faulted s .registerIndexError)) ∧
  Claims.RunsAsF2 true Config.opcAdd .add

/-- R158: SUBTRACT, an instruction only when `EXT_ADDSUB` is true, replaces `x[A]` by `x[A] - x[B]`, plus 256
when that is negative; `pc` advances by 3, nothing else changes, no flag among it. -/
def Obligations.SubtractWritesWrappedDifference : Prop :=
  (∀ (s : State) (a b : Byte) (ha : a.toNat < 8) (_ : b.toNat < 8), s.pc.toNat + 3 ≤ 256 →
    exec (.subtract a b) s = .next { s with
      x := s.x.set a.toNat
        (BitVec.ofInt 8 (((s.x[a.toNat].toNat : Int) - (s.x[b.toNat].toNat : Int)) % 256)) ha,
      pc := s.pc + 3 }) ∧
  (∀ (s : State) (a b : Byte), 8 ≤ a.toNat ∨ 8 ≤ b.toNat →
    exec (.subtract a b) s = .next (Claims.faulted s .registerIndexError)) ∧
  Claims.RunsAsF2 true Config.opcSubtract .subtract

/-- R156: `EXT_ADDSUB` is false for this hardware; when it is false ADD and SUBTRACT are not instructions and
their bytes, unless they are another row's, raise `DecodeError`, whatever follows them; when it is true the
table gains the two rows. -/
def Obligations.AddSubtractExistOnlyWithTheExtension : Prop :=
  Config.hardware.extAddSub = false ∧
  (∀ (c : Config) (s : State), c.extAddSub = false → s.running = true → s.pc.toNat < 256 →
    s.mem.read s.pc.toNat = c.opcAdd ∨ s.mem.read s.pc.toNat = c.opcSubtract →
    s.mem.read s.pc.toNat ∉ baseTable.map (Mnemonic.opcode c) →
    stepWith c s = .next (Claims.faulted s .decodeError)) ∧
  (∀ (s : State), s.running = true → s.pc.toNat < 256 →
    s.mem.read s.pc.toNat = 0xA0 ∨ s.mem.read s.pc.toNat = 0xA1 →
    step s = .next (Claims.faulted s .decodeError)) ∧
  (∀ (c : Config) (a b : Byte),
    (c.hasInstr (.add a b) = true ↔ c.extAddSub = true) ∧
    (c.hasInstr (.subtract a b) = true ↔ c.extAddSub = true) ∧
    ∀ m, m ∈ dispatchTable c ↔
      m ∈ baseTable ∨ (c.extAddSub = true ∧ (m = .add ∨ m = .subtract)))

/-! ## Whole-machine rules -/

/-- Every step, from every state that meets the invariant, gives a state that meets it: memory stays
canonical, `pc` stays in 0 .. 256 (R25), `sp` in 0 .. 0xF4 (R29), `fl` in 0, 1, 2, 4 (R32), and no error
stands while running (R35). -/
def Obligations.EveryStepKeepsTheInvariant : Prop :=
  (∀ (c : Config) (s t : State), s.Inv → stepWith c s = .next t → t.Inv) ∧
  (∀ (s t : State), s.Inv → step s = .next t → t.Inv)

/-- The invariant holds in the state right after reset. -/
def Obligations.ResetMeetsTheInvariant : Prop := State.reset.Inv

/-- From reset, a successful load of any image and any number of steps: the state meets the invariant. -/
def Obligations.LoadedMachineKeepsTheInvariant : Prop :=
  ∀ (c : Config) (s s' : Session) (image : List Byte) (n : Nat) (t : State),
    s.reset.load image = .success s' → State.stepsTo c n s'.engine t → t.Inv

/-- R40, R230: the value of every component after reset, from any earlier state. -/
def Obligations.ResetValues : Prop :=
  ∀ s : Session, s.reset.engine = State.reset ∧
    (∀ r : Fin 8, State.reset.x[r] = 0) ∧ State.reset.pc = 0 ∧ State.reset.sp = 0xF4 ∧
    State.reset.fl = 0 ∧ State.reset.running = true ∧ State.reset.errCode = 0 ∧
    (∀ n, State.reset.mem.read n = 0) ∧ State.reset.out = [] ∧
    dispatchTable Config.hardware = baseTable

/-- R31: the only writer of `fl` is COMPARE, which writes exactly 1, 2 or 4; the only readers are the two
conditional jumps, and they read bit 0 only. -/
def Obligations.FlagsAreWrittenByCompareAndReadByJumps : Prop :=
  (∀ (i : Instr) (s t : State), exec i s = .next t → t.fl ≠ s.fl →
    (∃ a b, i = .compare a b) ∧ (t.fl = 1 ∨ t.fl = 2 ∨ t.fl = 4)) ∧
  (∀ (s t : State) (a b : Byte), exec (.compare a b) s = .next t → s.err = none → t.err = none →
    t.fl = 1 ∨ t.fl = 2 ∨ t.fl = 4) ∧
  (∀ (i : Instr) (s t : State) (f : Byte),
    ((∀ a, i ≠ .jumpIfEqual a ∧ i ≠ .jumpIfNotEqual a) ∨ f.getLsbD 0 = s.fl.getLsbD 0) →
    exec i s = .next t → ∃ u, exec i { s with fl := f } = .next u ∧ { u with fl := t.fl } = t)

/-- The stack pointer (R28) moves only by PUSH, down by one, and by POP, up by one, and no instruction copies
it to a register: nothing but PUSH and POP depends on it. -/
def Obligations.StackPointerMovesOnlyByPushAndPop : Prop :=
  (∀ (i : Instr) (s t : State), s.sp.toNat ≤ 244 → exec i s = .next t → t.sp ≠ s.sp →
    ((∃ a, i = .push a) ∧ t.sp.toNat + 1 = s.sp.toNat) ∨
      ((∃ a, i = .pop a) ∧ t.sp.toNat = s.sp.toNat + 1)) ∧
  (∀ (i : Instr) (s t : State) (v : Addr), (∀ a, i ≠ .push a ∧ i ≠ .pop a) →
    exec i s = .next t → exec i { s with sp := v } = .next { t with sp := v })

/-- R29: PUSH and POP keep `sp` in 0 .. 0xF4: at the bounds they raise their fault and change neither `sp`
nor memory, and from inside they stay inside. -/
def Obligations.StackPointerStaysInItsBounds : Prop :=
  State.reset.sp.toNat ≤ 244 ∧
  (∀ (c : Config) (s t : State), s.sp.toNat ≤ 244 → stepWith c s = .next t → t.sp.toNat ≤ 244) ∧
  (∀ (s : State) (a : Byte), a.toNat < 8 → s.sp = 0 → ∃ t, exec (.push a) s = .next t ∧
    t.err = some .stackOverflow ∧ t.sp = s.sp ∧ t.mem = s.mem) ∧
  (∀ (s : State) (a : Byte), a.toNat < 8 → s.sp = 0xF4 → ∃ t, exec (.pop a) s = .next t ∧
    t.err = some .stackUnderflow ∧ t.sp = s.sp ∧ t.mem = s.mem)

/-- The only (R53) instruction that writes memory is PUSH; it changes the one byte at `sp - 1`, an address in
0 .. 243 from every state of the invariant, to the register's value. -/
def Obligations.OnlyPushWritesMemory : Prop :=
  ∀ (i : Instr) (s t : State), s.mem.wf = true → s.sp.toNat ≤ 244 → exec i s = .next t →
    ∀ n, t.mem.read n ≠ s.mem.read n →
      ∃ (a : Byte) (_ : a.toNat < 8), i = .push a ∧ n = s.sp.toNat - 1 ∧ 1 ≤ s.sp.toNat ∧ n ≤ 243 ∧
        t.mem.read n = s.x[a.toNat]

/-- The output channel is append only: a step leaves it, or is a PRINT_REG that appends one register's
value; no instruction reads it. -/
def Obligations.OutputIsAppendOnly : Prop :=
  (∀ (i : Instr) (s t : State), exec i s = .next t →
    t.out = s.out ∨
      ∃ (a : Byte) (_ : a.toNat < 8), i = .printReg a ∧ t.out = s.out ++ [s.x[a.toNat]]) ∧
  (∀ (c : Config) (s t : State) (o : List Byte), stepWith c s = .next t →
    ∃ l, t.out = s.out ++ l ∧ stepWith c { s with out := o } = .next { t with out := o ++ l })

/-- The text the sink shows for a longer output is the text before, then the new value's decimal numeral and
one newline; a numeral has one to three digits, no leading zero, and its value is the byte (R37). -/
def Obligations.OutputTextIsDecimalLines : Prop :=
  (∀ (s : State) (v : Byte), (s.emit v).outputText = s.outputText ++ decimal v ++ ['\n']) ∧
  (∀ v : Byte, (decimal v).foldl (fun n d => 10 * n + (d.toNat - 48)) 0 = v.toNat ∧
    (∀ d ∈ decimal v, 48 ≤ d.toNat ∧ d.toNat ≤ 57) ∧
    (v ≠ 0 → (decimal v).head? ≠ some '0') ∧ (v = 0 → decimal v = ['0']))

/-- The running flag (R33) is cleared by HALT and by a fault, and by nothing else; no step sets it again. -/
def Obligations.RunningIsClearedByHaltOrFault : Prop :=
  ∀ (c : Config) (s t : State), stepWith c s = .next t →
    (s.running = false → t.running = false) ∧
    (s.running = true → t.running = false →
      (∃ rest, decode c s.window = .ok .halt rest ∧ t.err = s.err) ∨ ∃ k, t = Claims.faulted s k)

/-- The error status (R34, R213) is written only by a fault, with a code of 1 .. 5, and only once: after it
`running` is 0 and no further step changes anything. -/
def Obligations.ErrorIsWrittenOncePerReset : Prop :=
  (∀ (c : Config) (s t : State), stepWith c s = .next t → t.err ≠ s.err →
    ∃ k, t = Claims.faulted s k) ∧
  (∀ (s : State) (k : FaultKind), (Claims.faulted s k).errCode = k.code) ∧
  (∀ s : State, s.errCode ≤ 5 ∧ (s.errCode = 0 ↔ s.err = none)) ∧
  (FaultKind.decodeError.code = 1 ∧ FaultKind.registerIndexError.code = 2 ∧
    FaultKind.stackOverflow.code = 3 ∧ FaultKind.stackUnderflow.code = 4 ∧
    FaultKind.addressError.code = 5) ∧
  (∀ (c : Config) (s t u : State) (n : Nat), s.Inv → stepWith c s = .next t → t.err ≠ none →
    State.stepsTo c n t u → u = t)

/-- The registers an instruction writes (R42). -/
def Sys2Proof.Claims.regsWritten : Instr → List Byte
  | .loadImmediate a _ => [a]
  | .multiply a _ => [a]
  | .pop a => [a]
  | .add a _ => [a]
  | .subtract a _ => [a]
  | .halt => []
  | .printReg _ => []
  | .push _ => []
  | .compare _ _ => []
  | .jump _ => []
  | .jumpIfEqual _ => []
  | .jumpIfNotEqual _ => []

/-- The registers an instruction reads; a conditional jump reads its register when taken (R42). -/
def Sys2Proof.Claims.regsRead (i : Instr) (s : State) : List Byte :=
  match i with
  | .halt => []
  | .loadImmediate _ _ => []
  | .printReg a => [a]
  | .multiply a b => [a, b]
  | .push a => [a]
  | .pop _ => []
  | .compare a b => [a, b]
  | .jump a => [a]
  | .jumpIfEqual a => if s.fl.getLsbD 0 then [a] else []
  | .jumpIfNotEqual a => if s.fl.getLsbD 0 then [] else [a]
  | .add a b => [a, b]
  | .subtract a b => [a, b]

/-- An instruction (R42) changes no register but the ones the table says it writes, and its effect depends on
no register but the ones the table says it reads: with any other values in the others, it does the same to
every other component and writes the same value. -/
def Obligations.RegistersReadAndWritten : Prop :=
  (∀ (i : Instr) (s t : State) (r : Fin 8), exec i s = .next t → t.x[r] ≠ s.x[r] →
    ∃ a ∈ Claims.regsWritten i, a.toNat = r.val) ∧
  (∀ (i : Instr) (s t : State) (y : Vector Byte 8),
    (∀ r : Fin 8, (∃ a ∈ Claims.regsRead i s, a.toNat = r.val) → y[r] = s.x[r]) →
    exec i s = .next t →
    ∃ u, exec i { s with x := y } = .next u ∧ { u with x := t.x } = t ∧
      (s.err = none → t.err = none →
        ∀ r : Fin 8, (∃ a ∈ Claims.regsWritten i, a.toNat = r.val) → u.x[r] = t.x[r]) ∧
      (∀ r : Fin 8, (∀ a ∈ Claims.regsWritten i, a.toNat ≠ r.val) → u.x[r] = y[r]))

/-! ## Memory and the memory interface -/

/-- R52: a read below 256 answers the cell, a read from 256 upward raises `AddressError` and never wraps; the
data read of POP is always in range. -/
def Obligations.MemReadFaultsPastTheTop : Prop :=
  ∀ (s : State) (n : Nat),
    (n < 256 → s.memRead n = .ok (s.mem.read n)) ∧ (256 ≤ n → s.memRead n = .error .addressError) ∧
    (∀ a : Addr, s.memRead a.toNat = .ok (s.mem.read a.toNat))

/-- A read (R64) gives the most recent write to its address, and every other address is unchanged. -/
def Obligations.ReadGivesTheLastWrite : Prop :=
  ∀ (s : State) (a : Addr) (v : Byte) (n : Nat), s.mem.wf = true → n < 256 →
    (s.memWrite a v).memRead n = if n = a.toNat then .ok v else s.memRead n

/-- Two canonical memories that read the same at every address are the same data. -/
def Obligations.CanonicalMemoryIsUnique : Prop :=
  ∀ m m' : Memory, m.wf = true → m'.wf = true → (∀ n, n < 256 → m.read n = m'.read n) → m = m'

/-- The accesses (R54, R55) of a step of a fetched instruction, in order: the opcode byte, then as many operand
bytes as its format has, then the data access of PUSH or POP; an unrecognised opcode reads its byte only. -/
def Obligations.AccessesAreTheTable : Prop :=
  ∀ (c : Config) (s : State), s.running = true → s.pc.toNat < 256 →
    (decodeOpcode c (s.mem.read s.pc.toNat) = none → s.accesses c = [.read s.pc.toNat]) ∧
    (∀ i rest, decode c s.window = .ok i rest → i.wellFormed = true →
      (∀ a, i = .push a → s.sp ≠ 0) → (∀ a, i = .pop a → s.sp ≠ spInit) →
      s.accesses c = (List.range i.length).map (fun k => .read (s.pc.toNat + k)) ++
        (match i with
        | .push a => [.write (s.sp - 1).toNat (s.x.getD a.toNat 0)]
        | .pop _ => [.read s.sp.toNat]
        | _ => []))

/-- A step depends on no byte of memory but those its access list reads, and does to memory exactly what the
list says: with any other memory that agrees on those bytes it makes the same accesses, leaves the same
state in every other component, and writes the same bytes (R54, R117). -/
def Obligations.StepDependsOnlyOnItsAccesses : Prop :=
  ∀ (c : Config) (s t : State) (m : Memory),
    (∀ n, Access.read n ∈ s.accesses c → m.read n = s.mem.read n) → stepWith c s = .next t →
    ({ s with mem := m } : State).accesses c = s.accesses c ∧
    stepWith c { s with mem := m } = .next { t with mem := m.applyAccesses (s.accesses c) } ∧
    t.mem = s.mem.applyAccesses (s.accesses c)

/-- The byte (R67) a PUSH writes is what a fetch of that address returns from the very next step on; a PUSH of
an opcode onto the address of the next instruction is executed. -/
def Obligations.StoreIsSeenByTheNextFetch : Prop :=
  ∀ (c : Config) (s t : State) (a : Byte) (_ : a.toNat < 8), c.Valid → s.mem.wf = true → s.sp ≠ 0 →
    s.running = true → exec (.push a) s = .next t →
    t.memRead (s.sp - 1).toNat = .ok s.x[a.toNat] ∧
    (t.pc.toNat = (s.sp - 1).toNat → s.x[a.toNat] = c.opcHalt → stepWith c t = exec .halt t) ∧
    (t.pc.toNat = (s.sp - 1).toNat → decodeOpcode c s.x[a.toNat] = none →
      stepWith c t = .next (Claims.faulted t .decodeError))

/-! ## The stack -/

/-- PUSH then POP with no stack operation between restores `sp` and every byte outside the pushed slot, and
gives the popped register the pushed value (R172 item 1). -/
def Obligations.PushThenPopRestores : Prop :=
  ∀ (s t u : State) (a b : Byte) (_ : a.toNat < 8) (hb : b.toNat < 8), s.mem.wf = true → s.sp ≠ 0 →
    s.sp.toNat ≤ 244 → exec (.push a) s = .next t → exec (.pop b) t = .next u →
    u.sp = s.sp ∧ u.x = s.x.set b.toNat s.x[a.toNat] hb ∧ u.err = s.err ∧
    ∀ n, n ≠ (s.sp - 1).toNat → u.mem.read n = s.mem.read n

/-- The stack is last in, first out: after PUSH `r1`, PUSH `r2`, the sequence POP `q1`, POP `q2` gives
`x[q1]` the second value pushed and then `x[q2]` the first (R172 item 2). -/
def Obligations.StackIsLastInFirstOut : Prop :=
  ∀ (s t u v w : State) (r1 r2 q1 q2 : Byte) (_ : r1.toNat < 8) (_ : r2.toNat < 8) (_ : q1.toNat < 8)
    (_ : q2.toNat < 8), s.mem.wf = true → 2 ≤ s.sp.toNat → s.sp.toNat ≤ 244 →
    exec (.push r1) s = .next t → exec (.push r2) t = .next u → exec (.pop q1) u = .next v →
    exec (.pop q2) v = .next w →
    v.x[q1.toNat] = s.x[r2.toNat] ∧ w.x[q2.toNat] = s.x[r1.toNat] ∧ w.sp = s.sp

/-- The states along a run of PUSH instructions, none of which raises a fault. -/
def Sys2Proof.Claims.pushes : List Byte → State → State → Prop
  | [], s, t => s = t
  | a :: l, s, t => ∃ u, exec (.push a) s = .next u ∧ u.err = s.err ∧ Claims.pushes l u t

/-- The k-th value pushed onto an empty stack lies at `SP_INIT - k`, `sp` addresses the last one pushed, and
at most 244 values can be pushed (R172 items 3 and 4, R170). -/
def Obligations.PushedValuesLieBelowTheTop : Prop :=
  ∀ (l : List Byte) (s t : State), s.mem.wf = true → s.sp = spInit → s.err = none →
    (∀ a ∈ l, a.toNat < 8) → Claims.pushes l s t →
    l.length ≤ 244 ∧ t.sp.toNat = 244 - l.length ∧ t.x = s.x ∧
    (∀ (k : Nat) (a : Byte), l[k]? = some a → t.mem.read (244 - (k + 1)) = s.x.getD a.toNat 0) ∧
    (∀ n, n < 244 - l.length ∨ 244 ≤ n → t.mem.read n = s.mem.read n)

/-! ## The ALU -/

/-- R151: the product is the low 8 bits of the 16-bit product; the laws the rule lists. -/
def Obligations.MultiplyFunctionLaws : Prop :=
  (∀ u v : Byte, (aluMul u v).toNat = u.toNat * v.toNat % 256) ∧
  (∀ u v : Byte, aluMul u v = aluMul v u) ∧ (∀ u : Byte, aluMul u 0 = 0) ∧
  (∀ u : Byte, aluMul u 1 = u) ∧ (∀ u v : Byte, aluMul u v = BitVec.ofInt 8 (u.toInt * v.toInt)) ∧
  aluMul 200 2 = 144 ∧ aluMul 255 255 = 1 ∧ aluMul 16 16 = 0 ∧ aluMul 128 2 = 0

/-- R152: the comparison is unsigned, exactly one of the three values results, and each results exactly in
its case. -/
def Obligations.CompareFunctionIsTrichotomy : Prop :=
  (∀ u v : Byte,
    (aluCmp u v = 0b00000001 ↔ u.toNat = v.toNat) ∧
    (aluCmp u v = 0b00000010 ↔ v.toNat < u.toNat) ∧
    (aluCmp u v = 0b00000100 ↔ u.toNat < v.toNat) ∧
    (aluCmp u v = 0b00000001 ∨ aluCmp u v = 0b00000010 ∨ aluCmp u v = 0b00000100)) ∧
  aluCmp 0x80 0x7F = 0b00000010

/-- R153: the sum and the difference modulo 256; the difference is `u - v`, plus 256 when `u < v`. -/
def Obligations.AddAndSubtractFunctionLaws : Prop :=
  ∀ u v : Byte,
    (aluAdd u v).toNat = (u.toNat + v.toNat) % 256 ∧
    (v.toNat ≤ u.toNat → (aluSub u v).toNat = u.toNat - v.toNat) ∧
    (u.toNat < v.toNat → (aluSub u v).toNat = u.toNat + 256 - v.toNat) ∧
    aluSub (aluAdd u v) v = u ∧ aluAdd (aluSub u v) v = u

/-! ## The host interface -/

/-- R61: a load of 1 .. 256 bytes in the reset state places byte `k` of the image at address `k`, leaves the
rest of memory and every other component, and reports success; a second one has no meaning (R234). -/
def Obligations.LoadPlacesTheImage : Prop :=
  ∀ (s : Session) (image : List Byte), 1 ≤ image.length → image.length ≤ 256 →
    ∃ s', s.reset.load image = .success s' ∧
      s'.engine = { State.reset with mem := s'.engine.mem } ∧ s'.engine.mem.wf = true ∧
      (∀ (k : Nat) (v : Byte), image[k]? = some v → s'.engine.mem.read k = v) ∧
      (∀ k, image.length ≤ k → s'.engine.mem.read k = 0) ∧
      (∀ image', s'.load image' = .refused)

/-- R62: an empty image, or one of more than 256 bytes, changes nothing and is reported as `LoadError`; a run
after it executes from zeroed memory and raises `DecodeError` at address 0. -/
def Obligations.LoadErrorChangesNothing : Prop :=
  ∀ (s : Session) (image : List Byte), image.length = 0 ∨ 256 < image.length →
    ∃ s', s.reset.load image = .loadError s' ∧ s'.engine = State.reset ∧
      step s'.engine = .next (Claims.faulted State.reset .decodeError) ∧
      ∀ fuel, s'.run Config.hardware (fuel + 1) =
        some { engine := Claims.faulted State.reset .decodeError, canLoad := false }

/-- After a `run` has returned, a `load` is refused (R234). -/
def Obligations.LoadAfterRunIsRefused : Prop :=
  ∀ (c : Config) (fuel : Nat) (s s' : Session) (image : List Byte), s.run c fuel = some s' →
    s'.load image = .refused

/-- `run` (R119) returns, for some number of steps allowed to it, exactly when some finite number of steps
reaches `running` = 0; it returns that state, and no other for any greater number. -/
def Obligations.RunReturnsExactlyWhenItStops : Prop :=
  ∀ (c : Config) (s t : State),
    ((∃ fuel, s.runFor c fuel = some t) ↔ ∃ n, State.stepsTo c n s t ∧ t.running = false) ∧
    (∀ fuel n, s.runFor c fuel = some t → s.runFor c (fuel + n) = some t)

/-- A run (R121, R222) from a state of the invariant that returns ended well, by a HALT that left `pc` one past
its own address, or faulted, leaving `pc` at the faulting opcode; never both. -/
def Obligations.RunEndsCleanOrFaulted : Prop :=
  ∀ (c : Config) (fuel : Nat) (s t : State), s.Inv → s.running = true → s.runFor c fuel = some t →
    ∃ u n, State.stepsTo c n s u ∧ u.running = true ∧ stepWith c u = .next t ∧
      ((t.condition = .haltedClean ∧ t.EndedWell ∧ t.pc.toNat = u.pc.toNat + 1 ∧
          ∃ rest, decode c u.window = .ok .halt rest) ∨
        (∃ k, t.condition = .faulted k ∧ ¬t.EndedWell ∧ t = Claims.faulted u k))

/-! ## Control transfer -/

/-- A jump (R183 item 1) checks nothing about its target: a jump to a byte that is no opcode completes, and the
next step raises `DecodeError` with `pc` equal to the target. -/
def Obligations.JumpTargetIsUncheckedUntilFetched : Prop :=
  ∀ (c : Config) (s t : State) (a : Byte) (_ : a.toNat < 8), s.running = true → s.err = none →
    exec (.jump a) s = .next t →
    t.err = none ∧ t.pc.toNat = s.x[a.toNat].toNat ∧
    (decodeOpcode c (s.mem.read s.x[a.toNat].toNat) = none →
      ∃ u, stepWith c t = .next u ∧ u.err = some .decodeError ∧ u.pc.toNat = s.x[a.toNat].toNat)
end

