-- ==== Sys2Proof/Laws/State.lean ====
section
/-! SUPPORT. The state's projections through every update, so that no later proof unfolds a record
update; the reset state's fields. -/

namespace Sys2Proof.Machine

variable (s : State)

/-! ### `State.memWrite` -/

@[simp] theorem memWrite_x (a : Addr) (v : Byte) : (s.memWrite a v).x = s.x := rfl
@[simp] theorem memWrite_pc (a : Addr) (v : Byte) : (s.memWrite a v).pc = s.pc := rfl
@[simp] theorem memWrite_sp (a : Addr) (v : Byte) : (s.memWrite a v).sp = s.sp := rfl
@[simp] theorem memWrite_fl (a : Addr) (v : Byte) : (s.memWrite a v).fl = s.fl := rfl
@[simp] theorem memWrite_running (a : Addr) (v : Byte) : (s.memWrite a v).running = s.running := rfl
@[simp] theorem memWrite_err (a : Addr) (v : Byte) : (s.memWrite a v).err = s.err := rfl
@[simp] theorem memWrite_mem (a : Addr) (v : Byte) : (s.memWrite a v).mem = s.mem.write a.toNat v := rfl
@[simp] theorem memWrite_out (a : Addr) (v : Byte) : (s.memWrite a v).out = s.out := rfl

/-! ### `State.writeReg` -/

@[simp] theorem writeReg_x (r : RegIndex) (v : Byte) : (s.writeReg r v).x = s.x.set r v := rfl
@[simp] theorem writeReg_pc (r : RegIndex) (v : Byte) : (s.writeReg r v).pc = s.pc := rfl
@[simp] theorem writeReg_sp (r : RegIndex) (v : Byte) : (s.writeReg r v).sp = s.sp := rfl
@[simp] theorem writeReg_fl (r : RegIndex) (v : Byte) : (s.writeReg r v).fl = s.fl := rfl
@[simp] theorem writeReg_running (r : RegIndex) (v : Byte) : (s.writeReg r v).running = s.running := rfl
@[simp] theorem writeReg_err (r : RegIndex) (v : Byte) : (s.writeReg r v).err = s.err := rfl
@[simp] theorem writeReg_mem (r : RegIndex) (v : Byte) : (s.writeReg r v).mem = s.mem := rfl
@[simp] theorem writeReg_out (r : RegIndex) (v : Byte) : (s.writeReg r v).out = s.out := rfl

/-! ### `State.setSp` -/

@[simp] theorem setSp_x (v : Addr) : (s.setSp v).x = s.x := rfl
@[simp] theorem setSp_pc (v : Addr) : (s.setSp v).pc = s.pc := rfl
@[simp] theorem setSp_sp (v : Addr) : (s.setSp v).sp = v := rfl
@[simp] theorem setSp_fl (v : Addr) : (s.setSp v).fl = s.fl := rfl
@[simp] theorem setSp_running (v : Addr) : (s.setSp v).running = s.running := rfl
@[simp] theorem setSp_err (v : Addr) : (s.setSp v).err = s.err := rfl
@[simp] theorem setSp_mem (v : Addr) : (s.setSp v).mem = s.mem := rfl
@[simp] theorem setSp_out (v : Addr) : (s.setSp v).out = s.out := rfl

/-! ### `State.setFl` -/

@[simp] theorem setFl_x (v : Byte) : (s.setFl v).x = s.x := rfl
@[simp] theorem setFl_pc (v : Byte) : (s.setFl v).pc = s.pc := rfl
@[simp] theorem setFl_sp (v : Byte) : (s.setFl v).sp = s.sp := rfl
@[simp] theorem setFl_fl (v : Byte) : (s.setFl v).fl = v := rfl
@[simp] theorem setFl_running (v : Byte) : (s.setFl v).running = s.running := rfl
@[simp] theorem setFl_err (v : Byte) : (s.setFl v).err = s.err := rfl
@[simp] theorem setFl_mem (v : Byte) : (s.setFl v).mem = s.mem := rfl
@[simp] theorem setFl_out (v : Byte) : (s.setFl v).out = s.out := rfl

/-! ### `State.emit` -/

@[simp] theorem emit_x (v : Byte) : (s.emit v).x = s.x := rfl
@[simp] theorem emit_pc (v : Byte) : (s.emit v).pc = s.pc := rfl
@[simp] theorem emit_sp (v : Byte) : (s.emit v).sp = s.sp := rfl
@[simp] theorem emit_fl (v : Byte) : (s.emit v).fl = s.fl := rfl
@[simp] theorem emit_running (v : Byte) : (s.emit v).running = s.running := rfl
@[simp] theorem emit_err (v : Byte) : (s.emit v).err = s.err := rfl
@[simp] theorem emit_mem (v : Byte) : (s.emit v).mem = s.mem := rfl
@[simp] theorem emit_out (v : Byte) : (s.emit v).out = s.out ++ [v] := rfl

/-! ### `State.stop` -/

@[simp] theorem stop_x : (s.stop).x = s.x := rfl
@[simp] theorem stop_pc : (s.stop).pc = s.pc := rfl
@[simp] theorem stop_sp : (s.stop).sp = s.sp := rfl
@[simp] theorem stop_fl : (s.stop).fl = s.fl := rfl
@[simp] theorem stop_running : (s.stop).running = false := rfl
@[simp] theorem stop_err : (s.stop).err = s.err := rfl
@[simp] theorem stop_mem : (s.stop).mem = s.mem := rfl
@[simp] theorem stop_out : (s.stop).out = s.out := rfl

/-! ### `State.advance` -/

@[simp] theorem advance_x (len : Pc) : (s.advance len).x = s.x := rfl
@[simp] theorem advance_pc (len : Pc) : (s.advance len).pc = s.pc + len := rfl
@[simp] theorem advance_sp (len : Pc) : (s.advance len).sp = s.sp := rfl
@[simp] theorem advance_fl (len : Pc) : (s.advance len).fl = s.fl := rfl
@[simp] theorem advance_running (len : Pc) : (s.advance len).running = s.running := rfl
@[simp] theorem advance_err (len : Pc) : (s.advance len).err = s.err := rfl
@[simp] theorem advance_mem (len : Pc) : (s.advance len).mem = s.mem := rfl
@[simp] theorem advance_out (len : Pc) : (s.advance len).out = s.out := rfl

/-! ### `State.jumpTo` -/

@[simp] theorem jumpTo_x (v : Byte) : (s.jumpTo v).x = s.x := rfl
@[simp] theorem jumpTo_pc (v : Byte) : (s.jumpTo v).pc = v.setWidth 9 := rfl
@[simp] theorem jumpTo_sp (v : Byte) : (s.jumpTo v).sp = s.sp := rfl
@[simp] theorem jumpTo_fl (v : Byte) : (s.jumpTo v).fl = s.fl := rfl
@[simp] theorem jumpTo_running (v : Byte) : (s.jumpTo v).running = s.running := rfl
@[simp] theorem jumpTo_err (v : Byte) : (s.jumpTo v).err = s.err := rfl
@[simp] theorem jumpTo_mem (v : Byte) : (s.jumpTo v).mem = s.mem := rfl
@[simp] theorem jumpTo_out (v : Byte) : (s.jumpTo v).out = s.out := rfl

/-! ### `State.raise` -/

@[simp] theorem raise_x (k : FaultKind) : (s.raise k).x = s.x := rfl
@[simp] theorem raise_pc (k : FaultKind) : (s.raise k).pc = s.pc := rfl
@[simp] theorem raise_sp (k : FaultKind) : (s.raise k).sp = s.sp := rfl
@[simp] theorem raise_fl (k : FaultKind) : (s.raise k).fl = s.fl := rfl
@[simp] theorem raise_running (k : FaultKind) : (s.raise k).running = false := rfl
@[simp] theorem raise_err (k : FaultKind) : (s.raise k).err = some k := rfl
@[simp] theorem raise_mem (k : FaultKind) : (s.raise k).mem = s.mem := rfl
@[simp] theorem raise_out (k : FaultKind) : (s.raise k).out = s.out := rfl

/-! ### `State.reset` -/

@[simp] theorem reset_x : State.reset.x = Vector.replicate numRegs 0 := rfl
@[simp] theorem reset_pc : State.reset.pc = 0 := rfl
@[simp] theorem reset_sp : State.reset.sp = spInit := rfl
@[simp] theorem reset_fl : State.reset.fl = 0 := rfl
@[simp] theorem reset_running : State.reset.running = true := rfl
@[simp] theorem reset_err : State.reset.err = none := rfl
@[simp] theorem reset_mem : State.reset.mem = [] := rfl
@[simp] theorem reset_out : State.reset.out = [] := rfl

end Sys2Proof.Machine
end

