-- ==== Sys2Proof/Laws/Memory.lean ====
section
/-! SUPPORT. Memory: read after write, the canonical form, and its uniqueness (20_memory.md R52, R53,
R64). -/

namespace Sys2Proof.Machine

@[simp] theorem read_nil (a : Nat) : Memory.read [] a = memDefault := rfl

theorem read_cons (b : Nat) (w : Byte) (m : Memory) (a : Nat) :
    Memory.read ((b, w) :: m) a = if a = b then w else Memory.read m a := rfl

@[simp] theorem wf_nil : Memory.wf [] = true := rfl

theorem wfFrom_cons {lo a : Nat} {v : Byte} {m : Memory} :
    Memory.wfFrom lo ((a, v) :: m) = true ↔
      (lo ≤ a ∧ a < memSize) ∧ v ≠ memDefault ∧ Memory.wfFrom (a + 1) m = true := by
  simp [Memory.wfFrom, and_assoc]

/-- A canonical memory lists nothing below the address it is canonical from. -/
theorem read_below {m : Memory} : ∀ {lo a : Nat}, m.wfFrom lo = true → a < lo →
    m.read a = memDefault := by
  induction m with
  | nil => intro lo a _ _; rfl
  | cons c m ih =>
    obtain ⟨b, w⟩ := c
    intro lo a h ha
    obtain ⟨⟨hlo, -⟩, -, ht⟩ := wfFrom_cons.1 h
    rw [read_cons, if_neg (by omega)]
    exact ih ht (by omega)

/-- No address from `MEM_SIZE` upward is listed. -/
theorem read_above {m : Memory} : ∀ {lo a : Nat}, m.wfFrom lo = true → memSize ≤ a →
    m.read a = memDefault := by
  induction m with
  | nil => intro lo a _ _; rfl
  | cons c m ih =>
    obtain ⟨b, w⟩ := c
    intro lo a h ha
    obtain ⟨⟨-, hb⟩, -, ht⟩ := wfFrom_cons.1 h
    rw [read_cons, if_neg (by omega)]
    exact ih ht ha

theorem wfFrom_mono {m : Memory} {lo lo' : Nat} (h : m.wfFrom lo = true) (hl : lo' ≤ lo) :
    m.wfFrom lo' = true := by
  cases m with
  | nil => rfl
  | cons c m =>
    obtain ⟨b, w⟩ := c
    rw [wfFrom_cons] at h ⊢
    exact ⟨⟨by omega, h.1.2⟩, h.2⟩

theorem wfFrom_memCons {m : Memory} {lo a : Nat} (v : Byte) (hlo : lo ≤ a) (ha : a < memSize)
    (h : m.wfFrom (a + 1) = true) : (Memory.cons a v m).wfFrom lo = true := by
  unfold Memory.cons
  split
  · exact wfFrom_mono h (by omega)
  · exact wfFrom_cons.2 ⟨⟨hlo, ha⟩, ‹_›, h⟩

theorem read_memCons {m : Memory} {a : Nat} (v : Byte) (h : m.wfFrom (a + 1) = true) (b : Nat) :
    (Memory.cons a v m).read b = if b = a then v else m.read b := by
  unfold Memory.cons
  split
  · split
    · subst b v; exact read_below h (by omega)
    · rfl
  · rfl

/-- A write keeps the canonical form. -/
theorem write_wfFrom {m : Memory} : ∀ {lo a : Nat} (v : Byte), m.wfFrom lo = true → lo ≤ a →
    a < memSize → (m.write a v).wfFrom lo = true := by
  induction m with
  | nil => intro lo a v _ hlo ha; exact wfFrom_memCons v hlo ha rfl
  | cons c m ih =>
    obtain ⟨b, w⟩ := c
    intro lo a v h hlo ha
    have hc := wfFrom_cons.1 h
    simp only [Memory.write]
    split
    · exact wfFrom_memCons v hlo ha (wfFrom_cons.2 ⟨⟨by omega, hc.1.2⟩, hc.2⟩)
    · split
      · subst b; exact wfFrom_memCons v hlo ha hc.2.2
      · exact wfFrom_cons.2 ⟨hc.1, hc.2.1, ih v hc.2.2 (by omega) ha⟩

/-- A write keeps the canonical form of a whole memory. -/
theorem write_keeps_wf {m : Memory} {a : Nat} (v : Byte) (h : m.wf = true) (ha : a < memSize) :
    (m.write a v).wf = true := write_wfFrom v h (Nat.zero_le a) ha

/-- A read after a write: the byte written at its address, every other byte as before. -/
theorem read_write_from {m : Memory} : ∀ {lo a : Nat} (v : Byte) (b : Nat), m.wfFrom lo = true →
    (m.write a v).read b = if b = a then v else m.read b := by
  induction m with
  | nil => intro lo a v b _; exact read_memCons v rfl b
  | cons c m ih =>
    obtain ⟨d, w⟩ := c
    intro lo a v b h
    have hc := wfFrom_cons.1 h
    simp only [Memory.write]
    split
    · exact read_memCons v (wfFrom_cons.2 ⟨⟨by omega, hc.1.2⟩, hc.2⟩) b
    · split
      · subst d
        rw [read_memCons v hc.2.2, read_cons]
        split <;> rfl
      · rw [read_cons, read_cons, ih v b hc.2.2]
        by_cases hb : b = d
        · rw [if_pos hb, if_neg (by omega), if_pos hb]
        · simp only [if_neg hb]

theorem read_write {m : Memory} {a : Nat} (v : Byte) (b : Nat) (h : m.wf = true) :
    (m.write a v).read b = if b = a then v else m.read b := read_write_from v b h

/-- The writes of stored bytes keep the canonical form. -/
theorem storeBytes_keeps_wf (bs : List Byte) : ∀ (s : State) (a : Nat), s.mem.wf = true →
    (s.storeBytes a bs).mem.wf = true := by
  induction bs with
  | nil => intro s a h; exact h
  | cons b bs ih =>
    intro s a h
    simp only [State.storeBytes]
    split
    · exact ih _ _ (write_keeps_wf b h ‹_›)
    · exact h

/-- Storing bytes changes no component but memory. -/
theorem storeBytes_eq (bs : List Byte) : ∀ (s : State) (a : Nat),
    s.storeBytes a bs = { s with mem := (s.storeBytes a bs).mem } := by
  induction bs with
  | nil => intro s a; rfl
  | cons b bs ih =>
    intro s a
    simp only [State.storeBytes]
    split
    · exact ih _ _
    · rfl

/-- What an address reads as after bytes are stored from `a` upward. -/
theorem read_storeBytes (bs : List Byte) : ∀ (s : State) (a b : Nat), s.mem.wf = true →
    a + bs.length ≤ memSize →
    (s.storeBytes a bs).mem.read b =
      if h : a ≤ b ∧ b - a < bs.length then bs[b - a] else s.mem.read b := by
  induction bs with
  | nil => intro s a b _ _; simp [State.storeBytes]
  | cons v bs ih =>
    intro s a b hwf hlen
    simp only [List.length_cons] at hlen
    simp only [State.storeBytes, if_pos (show a < memSize by omega)]
    rw [ih _ _ _ (write_keeps_wf v hwf (by omega)) (by omega), read_write v b hwf]
    by_cases hb : b = a
    · subst b; simp
    · by_cases h1 : a + 1 ≤ b ∧ b - (a + 1) < bs.length
      · rw [dif_pos h1, dif_pos (by simp only [List.length_cons]; omega)]
        have : b - a = (b - (a + 1)) + 1 := by omega
        simp only [this, List.getElem_cons_succ]
      · rw [dif_neg h1, if_neg hb, dif_neg (by simp only [List.length_cons]; omega)]

end Sys2Proof.Machine
end

