-- ==== Sys2Proof/Laws/Ops.lean ====
section
/-! SUPPORT. What each shared operation can do, said once: the checks, an attempted check, the operations
two instructions share, and the step. -/

namespace Sys2Proof.Machine

/-- A valid register operand selects the register it numbers (R88). -/
theorem regOperand_of_lt {v : Byte} (h : v.toNat < numRegs) : regOperand v = .ok ⟨v.toNat, h⟩ :=
  dif_pos h

/-- A register operand from 8 upward raises `RegisterIndexError` (R88). -/
theorem regOperand_of_le {v : Byte} (h : numRegs ≤ v.toNat) :
    regOperand v = .error .registerIndexError := dif_neg (Nat.not_lt.2 h)

theorem regOperand_cases (v : Byte) :
    (∃ h : v.toNat < numRegs, regOperand v = .ok ⟨v.toNat, h⟩) ∨
      (numRegs ≤ v.toNat ∧ regOperand v = .error .registerIndexError) := by
  by_cases h : v.toNat < numRegs
  · exact .inl ⟨h, regOperand_of_lt h⟩
  · exact .inr ⟨Nat.not_lt.1 h, regOperand_of_le (Nat.not_lt.1 h)⟩

theorem pushCheck_cases (s : State) :
    (s.sp ≠ 0 ∧ s.pushCheck = .ok ()) ∨ (s.sp = 0 ∧ s.pushCheck = .error .stackOverflow) := by
  by_cases h : s.sp = 0
  · exact .inr ⟨h, if_pos h⟩
  · exact .inl ⟨h, if_neg h⟩

theorem popCheck_cases (s : State) :
    (s.sp ≠ spInit ∧ s.popCheck = .ok ()) ∨
      (s.sp = spInit ∧ s.popCheck = .error .stackUnderflow) := by
  by_cases h : s.sp = spInit
  · exact .inr ⟨h, if_pos h⟩
  · exact .inl ⟨h, if_neg h⟩

theorem memRead_of_lt {s : State} {a : Nat} (h : a < memSize) : s.memRead a = .ok (s.mem.read a) :=
  if_pos h

theorem memRead_of_le {s : State} {a : Nat} (h : memSize ≤ a) :
    s.memRead a = .error .addressError := if_neg (Nat.not_lt.2 h)

/-- An 8-bit address is always in memory (R54). -/
@[simp] theorem memRead_addr (s : State) (a : Addr) : s.memRead a.toNat = .ok (s.mem.read a.toNat) :=
  memRead_of_lt a.isLt

@[simp] theorem attempt_ok {α : Type} (s : State) (v : α) (k : α → Result) :
    s.attempt (.ok v) k = k v := rfl

@[simp] theorem attempt_error {α : Type} (s : State) (f : FaultKind) (k : α → Result) :
    s.attempt (.error f) k = .next (s.raise f) := rfl

/-- An attempted check that answers a next state has passed, or has raised its fault. -/
theorem attempt_cases {α : Type} {s t : State} {e : Except FaultKind α} {k : α → Result}
    (h : s.attempt e k = .next t) :
    (∃ v, e = .ok v ∧ k v = .next t) ∨ (∃ f, e = .error f ∧ t = s.raise f) := by
  cases e with
  | ok v => exact .inl ⟨v, rfl, h⟩
  | error f => exact .inr ⟨f, rfl, (Host.Outcome.next.inj h).symm⟩

/-- What an in-place ALU instruction does (R154, R157, R158). -/
theorem aluInPlace_cases {f : Byte → Byte → Byte} {a b : Byte} {s t : State}
    (h : aluInPlace f a b s = .next t) :
    (∃ (ha : a.toNat < numRegs) (hb : b.toNat < numRegs),
        t = (s.writeReg ⟨a.toNat, ha⟩ (f (s.x[a.toNat]) (s.x[b.toNat]))).advance 3) ∨
      ((numRegs ≤ a.toNat ∨ numRegs ≤ b.toNat) ∧ t = s.raise .registerIndexError) := by
  unfold aluInPlace at h
  obtain ⟨ha, ea⟩ | ⟨ha, ea⟩ := regOperand_cases a <;> rw [ea] at h
  · obtain ⟨hb, eb⟩ | ⟨hb, eb⟩ := regOperand_cases b <;> rw [eb] at h
    · exact .inl ⟨ha, hb, (Host.Outcome.next.inj h).symm⟩
    · exact .inr ⟨.inr hb, (Host.Outcome.next.inj h).symm⟩
  · exact .inr ⟨.inl ha, (Host.Outcome.next.inj h).symm⟩

/-- What a conditional jump does (R181, R182). -/
theorem branchIf_cases {taken : Bool} {a : Byte} {s t : State} (h : branchIf taken a s = .next t) :
    (∃ ha : a.toNat < numRegs, t = if taken then s.jumpTo (s.x[a.toNat]) else s.advance 2) ∨
      (numRegs ≤ a.toNat ∧ t = s.raise .registerIndexError) := by
  unfold branchIf at h
  obtain ⟨ha, ea⟩ | ⟨ha, ea⟩ := regOperand_cases a <;> rw [ea] at h
  · refine .inl ⟨ha, ?_⟩
    cases taken <;> exact (Host.Outcome.next.inj h).symm
  · exact .inr ⟨ha, (Host.Outcome.next.inj h).symm⟩

/-- A halted engine does nothing (R120). -/
theorem stepWith_of_halted {c : Config} {s : State} (h : s.running = false) :
    stepWith c s = .next s := by simp [stepWith, h]

/-- A running engine fetches, decodes and executes (R111). -/
theorem stepWith_of_running {c : Config} {s : State} (h : s.running = true) :
    stepWith c s = s.attempt (s.fetch c) fun i => exec i s := by simp [stepWith, h]

/-- Everything a step that answers a next state can have done: nothing, a fault of the fetch, or an
instruction. -/
theorem stepWith_cases {c : Config} {s t : State} (h : stepWith c s = .next t) :
    (s.running = false ∧ t = s) ∨
      (s.running = true ∧ ∃ f, s.fetch c = .error f ∧ t = s.raise f) ∨
      (s.running = true ∧ ∃ i, s.fetch c = .ok i ∧ exec i s = .next t) := by
  cases hr : s.running with
  | false =>
    rw [stepWith_of_halted hr] at h
    exact .inl ⟨rfl, (Host.Outcome.next.inj h).symm⟩
  | true =>
    rw [stepWith_of_running hr] at h
    obtain ⟨i, he, hi⟩ | ⟨f, he, ht⟩ := attempt_cases h
    · exact .inr (.inr ⟨rfl, i, he, hi⟩)
    · exact .inr (.inl ⟨rfl, f, he, ht⟩)

end Sys2Proof.Machine
end

