-- ==== Sys2Proof/Laws/Fetch.lean ====
section
/-! SUPPORT. The dispatch table's lookup, the bytes a fetch offers the decoder, and what a fetch answers
(30_encoding.md R85; 40_step.md R112 to R114). -/

namespace Sys2Proof

theorem find?_of_nodup_map {α β : Type} [DecidableEq β] (f : α → β) {l : List α} {x : α}
    (hd : (l.map f).Nodup) (hx : x ∈ l) : l.find? (fun y => f y == f x) = some x := by
  induction l with
  | nil => simp at hx
  | cons y l ih =>
    rw [List.map_cons, List.nodup_cons] at hd
    rw [List.find?_cons]
    by_cases hy : f y = f x
    · rcases List.mem_cons.1 hx with rfl | hx
      · simp
      · exact absurd (hy ▸ List.mem_map_of_mem hx) hd.1
    · rcases List.mem_cons.1 hx with rfl | hx
      · exact absurd rfl hy
      · rw [beq_eq_false_iff_ne.2 hy]
        exact ih hd.2 hx

/-- In an instance with distinct opcode bytes, a row is found by its own opcode byte (R6, R85). -/
theorem decodeOpcode_opcode {c : Config} (hv : c.Valid) {m : Mnemonic} (hm : m ∈ dispatchTable c) :
    decodeOpcode c (m.opcode c) = some m := find?_of_nodup_map (Mnemonic.opcode c) hv hm

/-- A row the lookup finds is in the table and has that opcode byte (R85). -/
theorem mem_of_decodeOpcode {c : Config} {op : Byte} {m : Mnemonic} (h : decodeOpcode c op = some m) :
    m ∈ dispatchTable c ∧ m.opcode c = op :=
  ⟨List.mem_of_find?_eq_some h, by simpa using List.find?_some h⟩

/-- A byte is unrecognised exactly when no row has it (R85, R90). -/
theorem decodeOpcode_eq_none {c : Config} {op : Byte} :
    decodeOpcode c op = none ↔ ∀ m ∈ dispatchTable c, m.opcode c ≠ op := by
  simp [decodeOpcode]

theorem decode_cons (c : Config) (op : Byte) (bs : List Byte) :
    decode c (op :: bs) =
      match decodeOpcode c op with
      | none => .unrecognized
      | some m => takeOperands m bs := rfl

/-- What taking the operands of a row can answer: the row's instruction with the bytes it took in front, or
a missing operand when there are fewer bytes than its format has (R114). -/
theorem takeOperands_cases (c : Config) (m : Mnemonic) (bs : List Byte) :
    (∃ i rest, takeOperands m bs = .ok i rest ∧ i.mnemonic = m ∧
        m.opcode c :: bs = encode c i ++ rest) ∨
      (takeOperands m bs = .missingOperand ∧ bs.length < m.format.operands) := by
  cases m <;> rcases bs with _ | ⟨a, _ | ⟨b, bs⟩⟩ <;>
    first
      | exact .inl ⟨_, _, rfl, rfl, rfl⟩
      | exact .inr ⟨rfl, by simp [Mnemonic.format, Format.operands]⟩

/-- The encoding of an instruction is its row's opcode byte and operands that its row takes back. -/
theorem takeOperands_encode (c : Config) (i : Instr) (rest : List Byte) :
    ∃ bs, encode c i ++ rest = i.mnemonic.opcode c :: bs ∧
      takeOperands i.mnemonic bs = .ok i rest := by
  cases i <;> exact ⟨_, rfl, rfl⟩

theorem length_encode (c : Config) (i : Instr) : (encode c i).length = i.length := by
  cases i <;> rfl

namespace Machine

theorem bytesFrom_succ (s : State) (a n : Nat) :
    s.bytesFrom a (n + 1) =
      if a < memSize then s.mem.read a :: s.bytesFrom (a + 1) n else [] := by
  by_cases h : a < memSize
  · simp [State.bytesFrom, memRead_of_lt h, h]
  · simp [State.bytesFrom, memRead_of_le (Nat.not_lt.1 h), h]

/-- The bytes offered to the decoder: from `pc` upward, those of at most three that exist. -/
theorem window_eq (s : State) :
    s.window =
      if s.pc.toNat < 256 then
        s.mem.read s.pc.toNat ::
          (if s.pc.toNat + 1 < 256 then
            s.mem.read (s.pc.toNat + 1) ::
              (if s.pc.toNat + 2 < 256 then [s.mem.read (s.pc.toNat + 2)] else [])
          else [])
      else [] := by
  rw [State.window, maxLength, bytesFrom_succ, bytesFrom_succ, bytesFrom_succ]
  rfl

/-- The fetch past the top of memory (R112). -/
theorem fetch_past_top {c : Config} {s : State} (h : 256 ≤ s.pc.toNat) :
    s.fetch c = .error .addressError := by
  simp [State.fetch, window_eq, Nat.not_lt.2 h, decode]

/-- The fetch of an unrecognised opcode byte (R113). -/
theorem fetch_unrecognized {c : Config} {s : State} (h : s.pc.toNat < 256)
    (hd : decodeOpcode c (s.mem.read s.pc.toNat) = none) : s.fetch c = .error .decodeError := by
  simp only [State.fetch, window_eq, if_pos h, decode_cons, hd]

/-- What a fetch of a recognised opcode byte answers: the instruction whose bytes stand at `pc`, or
`AddressError` when they do not all exist (R114). -/
theorem fetch_recognized {c : Config} {s : State} {m : Mnemonic} (h : s.pc.toNat < 256)
    (hd : decodeOpcode c (s.mem.read s.pc.toNat) = some m) :
    (s.pc.toNat + m.length ≤ 256 ∧ ∃ i rest, decode c s.window = .ok i rest ∧ s.fetch c = .ok i ∧
        i.mnemonic = m ∧ s.window = encode c i ++ rest) ∨
      (256 < s.pc.toNat + m.length ∧ s.fetch c = .error .addressError) := by
  obtain ⟨hm, ho⟩ := mem_of_decodeOpcode hd
  have hw := window_eq s
  rw [if_pos h] at hw
  obtain ⟨i, rest, ht, hi, hb⟩ | ⟨ht, hl⟩ := takeOperands_cases c m s.window.tail
  · have hdec : decode c s.window = .ok i rest := by
      rw [hw, decode_cons, hd]; rw [hw] at ht; exact ht
    refine .inl ⟨?_, i, rest, hdec, by simp only [State.fetch, hdec], hi, ?_⟩
    · have := congrArg List.length hb
      rw [List.length_cons, List.length_append, length_encode, List.length_tail, hw, Instr.length,
        hi] at this
      revert this
      simp only [Mnemonic.length]
      split <;> (try split) <;> simp <;> omega
    · rw [← hb, ho]; rw [hw]; rfl
  · have hdec : decode c s.window = .missingOperand := by
      rw [hw, decode_cons, hd]; rw [hw] at ht; exact ht
    refine .inr ⟨?_, by simp only [State.fetch, hdec]⟩
    rw [hw] at hl
    revert hl
    cases m <;> simp only [Mnemonic.length, Mnemonic.format, Format.operands, List.tail_cons] <;>
      (split <;> (try split) <;> simp <;> omega)

/-- A fetch answers an instruction exactly when the decoder does on the bytes offered. -/
theorem fetch_ok_iff {c : Config} {s : State} {i : Instr} :
    s.fetch c = .ok i ↔ ∃ rest, decode c s.window = .ok i rest := by
  unfold State.fetch
  cases decode c s.window <;> simp

/-- The bytes offered are what memory holds from `pc` upward, below 256. -/
theorem window_getElem? {s : State} {k : Nat} {v : Byte} (h : s.window[k]? = some v) :
    s.pc.toNat + k < 256 ∧ s.mem.read (s.pc.toNat + k) = v := by
  rw [window_eq] at h
  split at h
  · rcases k with _ | _ | _ | k
    · exact ⟨‹s.pc.toNat < 256›, Option.some.inj h⟩
    · split at h <;> simp_all
    · split at h <;> (try split at h) <;> simp_all
    · split at h <;> (try split at h) <;> simp_all
  · simp at h

end Machine

end Sys2Proof
end

