-- ==== Sys2Proof/Laws/Exec.lean ====
section
/-! SUPPORT. What executing an instruction can do, said once: it raises a fault in the unchanged state, or
it completes with one of the effects below (40_step.md R115, R116). -/

namespace Sys2Proof.Machine

/-- The effect of each instruction when its checks pass. -/
inductive Completes (s : State) : Instr → State → Prop where
  | halt : Completes s .halt (s.stop.advance 1)
  | loadImmediate (a v : Byte) (ha : a.toNat < numRegs) :
      Completes s (.loadImmediate a v) ((s.writeReg ⟨a.toNat, ha⟩ v).advance 3)
  | printReg (a : Byte) (ha : a.toNat < numRegs) :
      Completes s (.printReg a) ((s.emit s.x[a.toNat]).advance 2)
  | multiply (a b : Byte) (ha : a.toNat < numRegs) (hb : b.toNat < numRegs) :
      Completes s (.multiply a b)
        ((s.writeReg ⟨a.toNat, ha⟩ (aluMul s.x[a.toNat] s.x[b.toNat])).advance 3)
  | push (a : Byte) (ha : a.toNat < numRegs) (hs : s.sp ≠ 0) :
      Completes s (.push a) (((s.setSp (s.sp - 1)).memWrite (s.sp - 1) s.x[a.toNat]).advance 2)
  | pop (a : Byte) (ha : a.toNat < numRegs) (hs : s.sp ≠ spInit) :
      Completes s (.pop a)
        (((s.writeReg ⟨a.toNat, ha⟩ (s.mem.read s.sp.toNat)).setSp (s.sp + 1)).advance 2)
  | compare (a b : Byte) (ha : a.toNat < numRegs) (hb : b.toNat < numRegs) :
      Completes s (.compare a b) ((s.setFl (aluCmp s.x[a.toNat] s.x[b.toNat])).advance 3)
  | jump (a : Byte) (ha : a.toNat < numRegs) : Completes s (.jump a) (s.jumpTo s.x[a.toNat])
  | jumpIfEqual (a : Byte) (ha : a.toNat < numRegs) :
      Completes s (.jumpIfEqual a)
        (if equalBit s.fl then s.jumpTo s.x[a.toNat] else s.advance 2)
  | jumpIfNotEqual (a : Byte) (ha : a.toNat < numRegs) :
      Completes s (.jumpIfNotEqual a)
        (if !equalBit s.fl then s.jumpTo s.x[a.toNat] else s.advance 2)
  | add (a b : Byte) (ha : a.toNat < numRegs) (hb : b.toNat < numRegs) :
      Completes s (.add a b)
        ((s.writeReg ⟨a.toNat, ha⟩ (aluAdd s.x[a.toNat] s.x[b.toNat])).advance 3)
  | subtract (a b : Byte) (ha : a.toNat < numRegs) (hb : b.toNat < numRegs) :
      Completes s (.subtract a b)
        ((s.writeReg ⟨a.toNat, ha⟩ (aluSub s.x[a.toNat] s.x[b.toNat])).advance 3)

/-- Why an instruction raises a fault: a register operand from 8 upward, or, with valid operands, the bound
of the stack pointer (R115, R205). -/
inductive Faults (s : State) : Instr → FaultKind → Prop where
  | registerIndex (i : Instr) (h : i.wellFormed = false) : Faults s i .registerIndexError
  | stackOverflow (a : Byte) (ha : a.toNat < numRegs) (hs : s.sp = 0) :
      Faults s (.push a) .stackOverflow
  | stackUnderflow (a : Byte) (ha : a.toNat < numRegs) (hs : s.sp = spInit) :
      Faults s (.pop a) .stackUnderflow

theorem namesRegister_iff {v : Byte} : namesRegister v = true ↔ v.toNat < numRegs := by
  simp [namesRegister]

theorem namesRegister_eq_false {v : Byte} : namesRegister v = false ↔ numRegs ≤ v.toNat := by
  simp [namesRegister]

/-- An instruction whose checks pass answers its effect. -/
theorem exec_of_completes {i : Instr} {s t : State} (h : Completes s i t) : exec i s = .next t := by
  cases h with
  | halt => rfl
  | loadImmediate a v ha => simp only [exec, execLoadImmediate, regOperand_of_lt ha, attempt_ok, immediate]
  | printReg a ha => simp only [exec, execPrintReg, regOperand_of_lt ha, attempt_ok]; rfl
  | multiply a b ha hb =>
    simp only [exec, execMultiply, aluInPlace, regOperand_of_lt ha, regOperand_of_lt hb, attempt_ok]; rfl
  | push a ha hs =>
    have hc : s.pushCheck = .ok () := if_neg hs
    simp only [exec, execPush, regOperand_of_lt ha, hc, attempt_ok]; rfl
  | pop a ha hs =>
    have hc : s.popCheck = .ok () := if_neg hs
    simp only [exec, execPop, regOperand_of_lt ha, hc, attempt_ok, memRead_addr]
  | compare a b ha hb =>
    simp only [exec, execCompare, regOperand_of_lt ha, regOperand_of_lt hb, attempt_ok]; rfl
  | jump a ha => simp only [exec, execJump, regOperand_of_lt ha, attempt_ok]; rfl
  | jumpIfEqual a ha =>
    simp only [exec, execJumpIfEqual, branchIf, regOperand_of_lt ha, attempt_ok]
    cases equalBit s.fl <;> rfl
  | jumpIfNotEqual a ha =>
    simp only [exec, execJumpIfNotEqual, branchIf, regOperand_of_lt ha, attempt_ok]
    cases equalBit s.fl <;> rfl
  | add a b ha hb =>
    simp only [exec, execAdd, aluInPlace, regOperand_of_lt ha, regOperand_of_lt hb, attempt_ok]; rfl
  | subtract a b ha hb =>
    simp only [exec, execSubtract, aluInPlace, regOperand_of_lt ha, regOperand_of_lt hb, attempt_ok]; rfl

/-- An instruction one of whose register operands is 8 or more raises `RegisterIndexError` (R88). -/
theorem exec_of_not_wellFormed {i : Instr} (s : State) (h : i.wellFormed = false) :
    exec i s = .next (s.raise .registerIndexError) := by
  have one : ∀ a : Byte, [a].all namesRegister = false → regOperand a = .error .registerIndexError := by
    intro a ha
    exact regOperand_of_le (namesRegister_eq_false.1 (by simpa using ha))
  have two : ∀ (a b : Byte) (k : RegIndex → RegIndex → Result), [a, b].all namesRegister = false →
      (s.attempt (regOperand a) fun p => s.attempt (regOperand b) fun q => k p q) =
        .next (s.raise .registerIndexError) := by
    intro a b k hab
    obtain ⟨ha, ea⟩ | ⟨ha, ea⟩ := regOperand_cases a
    · have hb : namesRegister b = false := by simpa [namesRegister_iff.2 ha] using hab
      rw [ea, regOperand_of_le (namesRegister_eq_false.1 hb)]; rfl
    · rw [ea]; rfl
  cases i with
  | halt => cases h
  | loadImmediate a v => simp only [exec, execLoadImmediate, one a h, attempt_error]
  | printReg a => simp only [exec, execPrintReg, one a h, attempt_error]
  | multiply a b => exact two a b _ h
  | push a => simp only [exec, execPush, one a h, attempt_error]
  | pop a => simp only [exec, execPop, one a h, attempt_error]
  | compare a b => exact two a b _ h
  | jump a => simp only [exec, execJump, one a h, attempt_error]
  | jumpIfEqual a => simp only [exec, execJumpIfEqual, branchIf, one a h, attempt_error]
  | jumpIfNotEqual a => simp only [exec, execJumpIfNotEqual, branchIf, one a h, attempt_error]
  | add a b => exact two a b _ h
  | subtract a b => exact two a b _ h

/-- An instruction one of whose checks fails raises that check's fault in the unchanged state (R116). -/
theorem exec_of_faults {i : Instr} {s : State} {k : FaultKind} (h : Faults s i k) :
    exec i s = .next (s.raise k) := by
  cases h with
  | registerIndex i h => exact exec_of_not_wellFormed s h
  | stackOverflow a ha hs =>
    have hc : s.pushCheck = .error .stackOverflow := if_pos hs
    simp only [exec, execPush, regOperand_of_lt ha, hc, attempt_ok, attempt_error]
  | stackUnderflow a ha hs =>
    have hc : s.popCheck = .error .stackUnderflow := if_pos hs
    simp only [exec, execPop, regOperand_of_lt ha, hc, attempt_ok, attempt_error]

/-- Every instruction completes or faults, in every state. -/
theorem completes_or_faults (i : Instr) (s : State) :
    (∃ t, Completes s i t) ∨ ∃ k, Faults s i k := by
  cases hw : i.wellFormed with
  | false => exact .inr ⟨_, .registerIndex i hw⟩
  | true =>
    have one : ∀ a : Byte, [a].all namesRegister = true → a.toNat < numRegs := fun a ha =>
      namesRegister_iff.1 (by simpa using ha)
    have two : ∀ a b : Byte, [a, b].all namesRegister = true →
        a.toNat < numRegs ∧ b.toNat < numRegs := fun a b h =>
      ⟨namesRegister_iff.1 (by simp at h; exact h.1), namesRegister_iff.1 (by simp at h; exact h.2)⟩
    cases i with
    | halt => exact .inl ⟨_, .halt⟩
    | loadImmediate a v => exact .inl ⟨_, .loadImmediate a v (one a hw)⟩
    | printReg a => exact .inl ⟨_, .printReg a (one a hw)⟩
    | multiply a b => exact .inl ⟨_, .multiply a b (two a b hw).1 (two a b hw).2⟩
    | push a =>
      by_cases hs : s.sp = 0
      · exact .inr ⟨_, .stackOverflow a (one a hw) hs⟩
      · exact .inl ⟨_, .push a (one a hw) hs⟩
    | pop a =>
      by_cases hs : s.sp = spInit
      · exact .inr ⟨_, .stackUnderflow a (one a hw) hs⟩
      · exact .inl ⟨_, .pop a (one a hw) hs⟩
    | compare a b => exact .inl ⟨_, .compare a b (two a b hw).1 (two a b hw).2⟩
    | jump a => exact .inl ⟨_, .jump a (one a hw)⟩
    | jumpIfEqual a => exact .inl ⟨_, .jumpIfEqual a (one a hw)⟩
    | jumpIfNotEqual a => exact .inl ⟨_, .jumpIfNotEqual a (one a hw)⟩
    | add a b => exact .inl ⟨_, .add a b (two a b hw).1 (two a b hw).2⟩
    | subtract a b => exact .inl ⟨_, .subtract a b (two a b hw).1 (two a b hw).2⟩

/-- If `exec` answers a next state, the instruction completed with its effect, or raised its fault. -/
theorem exec_cases {i : Instr} {s t : State} (h : exec i s = .next t) :
    Completes s i t ∨ ∃ k, Faults s i k ∧ t = s.raise k := by
  obtain ⟨u, hu⟩ | ⟨k, hk⟩ := completes_or_faults i s
  · have := (exec_of_completes hu).symm.trans h
    exact .inl (Host.Outcome.next.inj this ▸ hu)
  · have := (exec_of_faults hk).symm.trans h
    exact .inr ⟨k, hk, (Host.Outcome.next.inj this).symm⟩

end Sys2Proof.Machine
end

