-- ==== Sys2Proof/Laws/PerInstr.lean ====
section
/-! SUPPORT. Statements about every instruction as syntax, one lemma per constructor (30_encoding.md R80,
R83, R84). -/

namespace Sys2Proof.Laws

/-- The encoding of an instruction has the length its row of the dispatch table gives, and begins with its
row's opcode byte, in every instance (R80, R81, R83, R84). -/
def Layout.Statement (i : Instr) : Prop :=
  ∀ c : Config, (encode c i).length = i.length ∧ (encode c i).head? = some (i.mnemonic.opcode c)

theorem Layout.halt : Layout.Statement .halt := fun _ => ⟨rfl, rfl⟩

theorem Layout.loadImmediate (a value : Byte) : Layout.Statement (.loadImmediate a value) :=
  fun _ => ⟨rfl, rfl⟩

theorem Layout.printReg (a : Byte) : Layout.Statement (.printReg a) := fun _ => ⟨rfl, rfl⟩

theorem Layout.multiply (a b : Byte) : Layout.Statement (.multiply a b) := fun _ => ⟨rfl, rfl⟩

theorem Layout.push (a : Byte) : Layout.Statement (.push a) := fun _ => ⟨rfl, rfl⟩

theorem Layout.pop (a : Byte) : Layout.Statement (.pop a) := fun _ => ⟨rfl, rfl⟩

theorem Layout.compare (a b : Byte) : Layout.Statement (.compare a b) := fun _ => ⟨rfl, rfl⟩

theorem Layout.jump (a : Byte) : Layout.Statement (.jump a) := fun _ => ⟨rfl, rfl⟩

theorem Layout.jumpIfEqual (a : Byte) : Layout.Statement (.jumpIfEqual a) := fun _ => ⟨rfl, rfl⟩

theorem Layout.jumpIfNotEqual (a : Byte) : Layout.Statement (.jumpIfNotEqual a) :=
  fun _ => ⟨rfl, rfl⟩

theorem Layout.add (a b : Byte) : Layout.Statement (.add a b) := fun _ => ⟨rfl, rfl⟩

theorem Layout.subtract (a b : Byte) : Layout.Statement (.subtract a b) := fun _ => ⟨rfl, rfl⟩

end Sys2Proof.Laws
end

