-- ==== Sys2Proof/Tests/Slice0.lean ====
section
/-! SUPPORT. Tests: the checks of WellFormed refuse ill-formed terms; each row's word decodes; one step per
vector, expected results from 95_test_vectors.md; and a witness of the hypotheses of each statement. -/

namespace Sys2Proof.Tests

open Sys2Proof.Machine

/-! ## Well-formedness: each register operand position is checked -/

theorem test_wf_accepts_highest_register : (Instr.multiply 7 0).wellFormed = true := by decide

theorem test_wf_accepts_any_immediate : (Instr.loadImmediate 0 255).wellFormed = true := by decide

theorem test_wf_refuses_one_operand :
    ∀ i ∈ [Instr.loadImmediate 8 1, .printReg 255, .push 8, .pop 9, .jump 8, .jumpIfEqual 8,
      .jumpIfNotEqual 0x80], i.wellFormed = false := by decide

theorem test_wf_refuses_first_operand :
    ∀ i ∈ [Instr.multiply 8 0, .compare 9 0, .add 8 0, .subtract 8 0], i.wellFormed = false := by
  decide

theorem test_wf_refuses_second_operand :
    ∀ i ∈ [Instr.multiply 0 8, .compare 0 8, .add 0 0x80, .subtract 0 8], i.wellFormed = false := by
  decide

/-! ## Decoding: one word per row, written bit by bit from 30_encoding.md R83, R84 -/

/-- The instance with the optional ADD and SUBTRACT. -/
def withExt : Config := { Config.hardware with extAddSub := true }

theorem test_hardware_valid : Config.hardware.Valid := by decide

theorem test_withExt_valid : withExt.Valid := by decide

theorem test_decode_halt : decode Config.hardware [0b00000001, 0b10000010] = .ok .halt [0x82] := by
  decide

theorem test_decode_loadImmediate :
    decode Config.hardware [0b10000010, 0b00000101, 0b10000010] = .ok (.loadImmediate 5 130) [] := by
  decide

theorem test_decode_printReg :
    decode Config.hardware [0b01000111, 0b00000111] = .ok (.printReg 7) [] := by decide

theorem test_decode_multiply :
    decode Config.hardware [0b10100010, 0b00000001, 0b00000000] = .ok (.multiply 1 0) [] := by decide

theorem test_decode_push :
    decode Config.hardware [0b01000101, 0b00000011] = .ok (.push 3) [] := by decide

theorem test_decode_pop :
    decode Config.hardware [0b01000110, 0b00000101] = .ok (.pop 5) [] := by decide

theorem test_decode_compare :
    decode Config.hardware [0b10100111, 0b00000001, 0b00000000] = .ok (.compare 1 0) [] := by decide

theorem test_decode_jump :
    decode Config.hardware [0b01010100, 0b00000010] = .ok (.jump 2) [] := by decide

theorem test_decode_jumpIfEqual :
    decode Config.hardware [0b01010101, 0b00000010] = .ok (.jumpIfEqual 2) [] := by decide

theorem test_decode_jumpIfNotEqual :
    decode Config.hardware [0b01010110, 0b00000010] = .ok (.jumpIfNotEqual 2) [] := by decide

theorem test_decode_add :
    decode withExt [0b10100000, 0b00000010, 0b00000011] = .ok (.add 2 3) [] := by decide

theorem test_decode_subtract :
    decode withExt [0b10100001, 0b00000010, 0b00000011] = .ok (.subtract 2 3) [] := by decide

/-- The unrecognised bytes of V-DEC11 to V-DEC22. -/
theorem test_decode_neighbours_unrecognized :
    ∀ op ∈ ([0x00, 0x02, 0x44, 0x48, 0x53, 0x57, 0x40, 0x81, 0xA0, 0xA1, 0xA8, 0xFF] : List Byte),
      decodeOpcode Config.hardware op = none := by decide

theorem test_decode_missing_operand : decode Config.hardware [0x82, 0x00] = .missingOperand := by
  decide

theorem test_decode_nothing : decode Config.hardware [] = .noOpcode := by decide

/-- A table word numbers the first byte's bits first. -/
theorem test_table_word : decodeTableWord 24 0x0901A2 = some (.multiply 1 9) := by decide

/-- A word shorter than the instruction has operand bytes of zeros. -/
theorem test_table_word_short : decodeTableWord 8 0xFF82 = some (.loadImmediate 0 0) := by decide

/-! ## One step per vector -/

/-- A state with the bytes at `pc`. -/
def at_ (s : State) (pc : Pc) (bytes : List Byte) : State :=
  ({ s with pc := pc }).storeBytes pc.toNat bytes

/-- S16 of 95_test_vectors.md: reset, `pc` = 16, bytes at 16. -/
def s16 (bytes : List Byte) : State := at_ State.reset 16 bytes

/-- The state with `x[0]`, `x[1]`, `x[2]` set. -/
def withX (s : State) (u v w : Byte) : State := { s with x := #v[u, v, w, 0, 0, 0, 0, 0] }

/-- The state after one step of `c`. -/
def afterWith (c : Config) (s : State) : State :=
  match stepWith c s with
  | .next t => t
  | .fault _ => s
  | .refused _ => s

/-- The state after one step of this hardware. -/
def after (s : State) : State :=
  match step s with
  | .next t => t
  | .fault _ => s
  | .refused _ => s

/-- V-SYS1. -/
theorem test_halt : after (s16 [0x01]) = { s16 [0x01] with pc := 17, running := false } := by decide

/-- V-SYS3: HALT at the last address. -/
theorem test_halt_at_255 : (after (at_ State.reset 255 [0x01])).pc = 256 ∧
    (after (at_ State.reset 255 [0x01])).err = none := by decide

/-- V-LDI2. -/
theorem test_loadImmediate : (after (s16 [0x82, 7, 255])).x[7] = 255 ∧
    (after (s16 [0x82, 7, 255])).pc = 19 := by decide

/-- V-LDI7: the operand 0x80 is not masked. -/
theorem test_loadImmediate_bad : after (s16 [0x82, 0x80, 1]) =
    { s16 [0x82, 0x80, 1] with running := false, err := some .registerIndexError } := by decide

/-- V-SYS7: appended at the end. -/
theorem test_printReg :
    (after { withX (s16 [0x47, 1]) 0 144 0 with out := [1, 2] }).out = [1, 2, 144] := by decide

/-- V-TOP3: a two-byte instruction at 255. -/
theorem test_printReg_top : after (at_ State.reset 255 [0x47]) =
    { at_ State.reset 255 [0x47] with running := false, err := some .addressError } := by decide

/-- V-MUL2: 200 * 2 = 144 modulo 256. -/
theorem test_multiply_wraps : (after (withX (s16 [0xA2, 0, 1]) 200 2 0)).x = #v[144, 2, 0, 0, 0, 0, 0, 0] ∧
    (after (withX (s16 [0xA2, 0, 1]) 200 2 0)).fl = 0 := by decide

/-- V-MUL9: A = B squares. -/
theorem test_multiply_squares : (after (withX (s16 [0xA2, 2, 2]) 0 0 13)).x[2] = 169 := by decide

/-- V-STK1 (with `x[2]`): the first push after reset. -/
theorem test_push : (after (withX (s16 [0x45, 2]) 0 0 42)).sp = 0xF3 ∧
    (after (withX (s16 [0x45, 2]) 0 0 42)).mem.read 0xF3 = 0x2A := by decide

/-- V-STK3 and V-STK4: the stack is full; the register check comes first. -/
theorem test_push_faults :
    after { s16 [0x45, 0] with sp := 0 } =
      { s16 [0x45, 0] with sp := 0, running := false, err := some .stackOverflow } ∧
    (after { s16 [0x45, 8] with sp := 0 }).err = some .registerIndexError := by decide

/-- V-STK13: pops the POP opcode itself. -/
theorem test_pop : (after { s16 [0x46, 4] with sp := 0x10 }).x[4] = 70 ∧
    (after { s16 [0x46, 4] with sp := 0x10 }).sp = 0x11 := by decide

/-- V-STK9: the stack is empty. -/
theorem test_pop_empty : after (s16 [0x46, 5]) =
    { s16 [0x46, 5] with running := false, err := some .stackUnderflow } := by decide

/-- V-CMP4: the comparison is unsigned. -/
theorem test_compare_unsigned : (after (withX (s16 [0xA7, 0, 1]) 128 127 0)).fl = 0x02 := by decide

/-- V-CMP8 and V-CMP10: the old flag is replaced; the operand order matters. -/
theorem test_compare_replaces : (after { withX (s16 [0xA7, 0, 1]) 5 5 0 with fl := 4 }).fl = 0x01 ∧
    (after (withX (s16 [0xA7, 1, 0]) 9 5 0)).fl = 0x04 := by decide

/-- V-BR3. -/
theorem test_jump : (after (withX (s16 [0x54, 1]) 0 255 0)).pc = 255 := by decide

/-- V-BR5. -/
theorem test_jump_bad : (after (s16 [0x54, 8])).err = some .registerIndexError ∧
    (after (s16 [0x54, 8])).pc = 16 := by decide

/-- V-BR6, V-BR7. -/
theorem test_jumpIfEqual : (after { withX (s16 [0x55, 2]) 0 0 32 with fl := 1 }).pc = 32 ∧
    (after { withX (s16 [0x55, 2]) 0 0 32 with fl := 2 }).pc = 18 := by decide

/-- V-BR14: the operand is checked although the jump would not be taken. -/
theorem test_jumpIfEqual_bad : (after { s16 [0x55, 8] with fl := 4 }).err =
    some .registerIndexError := by decide

/-- V-BR10, V-BR13. -/
theorem test_jumpIfNotEqual : (after { withX (s16 [0x56, 2]) 0 0 32 with fl := 1 }).pc = 18 ∧
    (after (withX (s16 [0x56, 2]) 0 0 32)).pc = 32 := by decide

/-- V-EXT1. -/
theorem test_add : (afterWith withExt (withX (s16 [0xA0, 0, 1]) 200 100 0)).x[0] = 44 := by decide

/-- V-EXT6. -/
theorem test_subtract : (afterWith withExt (withX (s16 [0xA1, 0, 1]) 5 9 0)).x[0] = 252 := by decide

/-- V-DEC-F2: ADD's byte without the extension. -/
theorem test_add_absent : after (s16 [0xA0, 0, 1]) =
    { s16 [0xA0, 0, 1] with running := false, err := some .decodeError } := by decide

/-- V-PRI4, V-PRI5: decode before the operand fetch, the operand fetch before the register check. -/
theorem test_fault_order : (after (at_ State.reset 255 [0x00])).err = some .decodeError ∧
    (after (at_ State.reset 254 [0x82, 8])).err = some .addressError := by decide

/-- V-TOP1: no byte at 256. -/
theorem test_fetch_at_256 : after { State.reset with pc := 256 } =
    { State.reset with pc := 256, running := false, err := some .addressError } := by decide

/-- V-HLT1: a faulted engine does nothing. -/
theorem test_halted_idle : after (after (s16 [0x00])) = after (s16 [0x00]) := by decide

/-- R37: `[0, 144]` shows as two lines. -/
theorem test_output_text : ({ State.reset with out := [0, 144] } : State).outputText =
    ['0', '\n', '1', '4', '4', '\n'] := by decide

/-- V-LD2. -/
theorem test_load : (Session.reset { engine := State.reset, canLoad := false }).load [0x01] =
    .success { engine := { State.reset with mem := [(0, 1)] }, canLoad := false } := by decide

/-- V-LD1. -/
theorem test_load_empty : (Session.reset { engine := State.reset, canLoad := false }).load [] =
    .loadError { engine := State.reset, canLoad := false } := by decide

/-- The first step after reset runs the word placed for it. -/
theorem test_withFetchWord : after (State.reset.withFetchWord 24 0x090082) =
    { State.reset.withFetchWord 24 0x090082 with x := #v[9, 0, 0, 0, 0, 0, 0, 0], pc := 3 } := by decide

/-- The accesses of PUSH (R54). -/
theorem test_accesses_push : (withX (s16 [0x45, 2]) 0 0 42).accesses Config.hardware =
    [.read 16, .read 17, .write 0xF3 42] := by decide

/-! ## Witnesses: for each statement, a state and operands that meet its hypotheses together -/

theorem witness_DecodeOfEncodeIsIdentity :
    (Config.hardware.Valid ∧ Config.hardware.hasInstr (.push 255) = true) ∧
    (withExt.Valid ∧ withExt.hasInstr (.subtract 0 255) = true) := by decide

theorem witness_DecodedBytesAreTheEncoding :
    decode Config.hardware [0x45, 0xFF, 0x01] = .ok (.push 255) [0x01] := by decide

theorem witness_OpcodeDecodeIsTotalLookup : Config.hardware.Valid ∧ withExt.Valid := by decide

theorem witness_LengthIsFixedByTheOpcode :
    decode Config.hardware [0xA2, 1, 2] = .ok (.multiply 1 2) [] ∧
    decode Config.hardware [0xA2, 3, 4, 5] = .ok (.multiply 3 4) [5] ∧
    decode Config.hardware [0x00] = .unrecognized := by decide

theorem witness_PlacedWordIsTheOneExecuted :
    (at_ State.reset 253 []).mem.wf = true ∧ (at_ State.reset 253 []).pc.toNat ≤ 253 ∧
    decodeTableWord 24 0x0901A2 = some (.multiply 1 9) := by decide

theorem witness_holds_at_253 :
    Claims.HoldsAtPc Config.hardware (at_ State.reset 253 [0x82, 1, 9]) (.loadImmediate 1 9) := by
  refine ⟨by decide, fun k v h => ?_⟩
  rcases k with _ | _ | _ | k
  · cases h; decide
  · cases h; decide
  · cases h; decide
  · cases h

theorem witness_StepRunsTheDecodedInstruction :
    Config.hardware.Valid ∧ Config.hardware.hasInstr (.loadImmediate 1 9) = true ∧
    (at_ State.reset 253 [0x82, 1, 9]).running = true := by decide

/-- The clauses in order: `pc` at 256; an unrecognised byte at 255; a known opcode whose last operand is at
256; bad operand; full stack; empty stack; a good instruction that ends at 255. -/
theorem witness_FaultPriority :
    256 ≤ ({ State.reset with pc := 256 } : State).pc.toNat ∧
    decodeOpcode Config.hardware ((at_ State.reset 255 [0x00]).mem.read 255) = none ∧
    decodeOpcode Config.hardware ((at_ State.reset 254 [0x82, 8]).mem.read 254) = some .loadImmediate ∧
    256 < 254 + Mnemonic.loadImmediate.length ∧
    (decode Config.hardware (s16 [0x45, 8]).window = .ok (.push 8) [0] ∧
      (Instr.push 8).wellFormed = false) ∧
    (decode Config.hardware (s16 [0x45, 7]).window = .ok (.push 7) [0] ∧
      (Instr.push 7).wellFormed = true ∧ ({ s16 [0x45, 7] with sp := 0 } : State).sp = 0) ∧
    ((Instr.pop 7).wellFormed = true ∧ (s16 [0x46, 7]).sp = spInit) ∧
    ((at_ State.reset 253 [0x82, 1, 9]).pc.toNat + Mnemonic.loadImmediate.length ≤ 256 ∧
      (Instr.loadImmediate 1 9).wellFormed = true) := by decide

theorem witness_OpcodeFetchReadsAtPc :
    (({ State.reset with pc := 255 } : State).running = true ∧
      ({ State.reset with pc := 255 } : State).pc.toNat < 256) ∧
    (({ State.reset with pc := 256 } : State).running = true ∧
      ({ State.reset with pc := 256 } : State).pc = 256) := by decide

theorem witness_UnrecognizedOpcodeFaults :
    (at_ State.reset 255 [0xFF]).running = true ∧ (at_ State.reset 255 [0xFF]).pc.toNat < 256 ∧
    ∀ m ∈ dispatchTable Config.hardware,
      m.opcode Config.hardware ≠ (at_ State.reset 255 [0xFF]).mem.read 255 := by decide

/-- HALT at 255, PRINT_REG at 254 and 255, LOAD_IMMEDIATE at 253 and 254. -/
theorem witness_OperandFetchFaultsExactlyAtTheTop :
    (at_ State.reset 255 [0x01]).running = true ∧ (at_ State.reset 255 [0x01]).err = none ∧
    decodeOpcode Config.hardware ((at_ State.reset 255 [0x01]).mem.read 255) = some .halt ∧
    decodeOpcode Config.hardware ((at_ State.reset 254 [0x47]).mem.read 254) = some .printReg ∧
    decodeOpcode Config.hardware ((at_ State.reset 255 [0x47]).mem.read 255) = some .printReg ∧
    decodeOpcode Config.hardware ((at_ State.reset 253 [0x82]).mem.read 253) = some .loadImmediate ∧
    decodeOpcode Config.hardware ((at_ State.reset 254 [0x82]).mem.read 254) = some .loadImmediate := by
  decide

theorem witness_HaltedEngineDoesNothing :
    (after (s16 [0x01])).running = false ∧ (after (s16 [0x00])).running = false := by decide

theorem witness_StepIsAllOrNothing :
    State.reset.running = true ∧ State.reset.err = none := by decide

/-- A step that faults, an advance that ends at 256, and a taken jump. -/
theorem witness_PcAdvancesOrJumps :
    (State.reset.err = none ∧ step State.reset = .next (Claims.faulted State.reset .decodeError) ∧
      (Claims.faulted State.reset .decodeError).err ≠ none) ∧
    ((at_ State.reset 255 []).pc.toNat + Instr.halt.length ≤ 256 ∧
      exec .halt (at_ State.reset 255 []) =
        .next { at_ State.reset 255 [] with running := false, pc := 256 }) ∧
    ((at_ State.reset 254 []).pc.toNat + (Instr.jump 7).length ≤ 256 ∧
      exec (.jump 7) (at_ State.reset 254 []) = .next (at_ State.reset 0 [])) :=
  ⟨⟨rfl, rfl, by decide⟩, ⟨by decide, rfl⟩, ⟨by decide, rfl⟩⟩

/-- Hypotheses of `Claims.AtOpcode` at `pc`, for this hardware and an opcode byte of it. -/
def atOpcode (op : Config → Byte) (pc : Pc) : State := at_ State.reset pc [op Config.hardware]

theorem witness_HaltStopsTheEngine :
    (at_ State.reset 255 []).pc.toNat + 1 ≤ 256 ∧
    Claims.AtOpcode false Config.opcHalt Config.hardware (atOpcode Config.opcHalt 255) ∧
    exec .halt (at_ State.reset 255 []) =
      .next { at_ State.reset 255 [] with running := false, pc := 256 } ∧
    State.reset.running = true ∧
    exec (.pop 0) State.reset = .next (Claims.faulted State.reset .stackUnderflow) :=
  ⟨by decide, by unfold Claims.AtOpcode; decide, rfl, rfl, rfl⟩

/-- An F2 row: completion ends at 256 from 253, the operand fetch faults from 254. -/
theorem witness_LoadImmediateSetsRegister :
    ((7 : Byte).toNat < 8 ∧ (at_ State.reset 253 []).pc.toNat + 3 ≤ 256) ∧ 8 ≤ (8 : Byte).toNat ∧
    Claims.AtOpcode false Config.opcLoadImmediate Config.hardware (atOpcode Config.opcLoadImmediate 253) ∧
    Claims.AtOpcode false Config.opcLoadImmediate Config.hardware
      (atOpcode Config.opcLoadImmediate 254) := by
  unfold Claims.AtOpcode; decide

/-- An F1 row: completion ends at 256 from 254, the operand fetch faults at 255. -/
theorem witness_PrintRegEmitsRegister :
    ((7 : Byte).toNat < 8 ∧ (at_ State.reset 254 []).pc.toNat + 2 ≤ 256) ∧ 8 ≤ (8 : Byte).toNat ∧
    Claims.AtOpcode false Config.opcPrintReg Config.hardware (atOpcode Config.opcPrintReg 254) ∧
    Claims.AtOpcode false Config.opcPrintReg Config.hardware (atOpcode Config.opcPrintReg 255) := by
  unfold Claims.AtOpcode; decide

theorem witness_MultiplyWritesWrappedProduct :
    ((7 : Byte).toNat < 8 ∧ (0 : Byte).toNat < 8 ∧ (at_ State.reset 253 []).pc.toNat + 3 ≤ 256) ∧
    (8 ≤ (8 : Byte).toNat ∨ 8 ≤ (0 : Byte).toNat) ∧ (8 ≤ (0 : Byte).toNat ∨ 8 ≤ (8 : Byte).toNat) ∧
    Claims.AtOpcode false Config.opcMultiply Config.hardware (atOpcode Config.opcMultiply 253) ∧
    Claims.AtOpcode false Config.opcMultiply Config.hardware (atOpcode Config.opcMultiply 254) := by
  unfold Claims.AtOpcode; decide

theorem witness_CompareWritesTheFlagRegister :
    ((0 : Byte).toNat < 8 ∧ (7 : Byte).toNat < 8 ∧ (at_ State.reset 253 []).pc.toNat + 3 ≤ 256) ∧
    (8 ≤ (8 : Byte).toNat ∨ 8 ≤ (0 : Byte).toNat) ∧ (8 ≤ (0 : Byte).toNat ∨ 8 ≤ (255 : Byte).toNat) ∧
    Claims.AtOpcode false Config.opcCompare Config.hardware (atOpcode Config.opcCompare 253) ∧
    Claims.AtOpcode false Config.opcCompare Config.hardware (atOpcode Config.opcCompare 255) := by
  unfold Claims.AtOpcode; decide

/-- The clause about the other instructions. -/
theorem witness_CompareWritesTheFlagRegister_others :
    (∀ a b, Instr.halt ≠ .compare a b) ∧
    exec .halt State.reset = .next { State.reset with running := false, pc := 1 } := ⟨nofun, rfl⟩

/-- A state with the given stack pointer. -/
def withSp (v : Addr) : State := { State.reset with sp := v }

/-- `sp` at 1 and at `SP_INIT`, and at 0 for the fault; the register check also with `sp` = 0. -/
theorem witness_PushStoresBelowTheStackPointer :
    ((7 : Byte).toNat < 8 ∧ (withSp 1).sp ≠ 0 ∧ (withSp 0xF4).sp ≠ 0 ∧
      ({ withSp 1 with pc := 254 } : State).pc.toNat + 2 ≤ 256) ∧
    (State.reset.mem.wf = true ∧
      exec (.push 7) (withSp 1) = .next { withSp 1 with sp := 0, pc := 2 }) ∧
    8 ≤ (8 : Byte).toNat ∧ (withSp 0).sp = 0 ∧
    Claims.AtOpcode false Config.opcPush Config.hardware (atOpcode Config.opcPush 254) ∧
    Claims.AtOpcode false Config.opcPush Config.hardware (atOpcode Config.opcPush 255) :=
  ⟨by decide, ⟨rfl, rfl⟩, by decide, rfl, by unfold Claims.AtOpcode; decide,
    by unfold Claims.AtOpcode; decide⟩

/-- `sp` at 0 and at 243, and at `SP_INIT` for the fault. -/
theorem witness_PopLoadsFromTheStackPointer :
    ((7 : Byte).toNat < 8 ∧ (withSp 0).sp.toNat < 244 ∧ (withSp 243).sp.toNat < 244 ∧
      ({ withSp 0 with pc := 254 } : State).pc.toNat + 2 ≤ 256) ∧
    8 ≤ (8 : Byte).toNat ∧ State.reset.sp = 0xF4 ∧
    Claims.AtOpcode false Config.opcPop Config.hardware (atOpcode Config.opcPop 254) ∧
    Claims.AtOpcode false Config.opcPop Config.hardware (atOpcode Config.opcPop 255) := by
  unfold Claims.AtOpcode; decide

theorem witness_JumpGoesToTheRegister :
    (7 : Byte).toNat < 8 ∧ 8 ≤ (8 : Byte).toNat ∧
    Claims.AtOpcode false Config.opcJump Config.hardware (atOpcode Config.opcJump 254) ∧
    Claims.AtOpcode false Config.opcJump Config.hardware (atOpcode Config.opcJump 255) := by
  unfold Claims.AtOpcode; decide

/-- The clause about a JUMP to its own address: at 254 through the last register. -/
theorem witness_JumpGoesToTheRegister_itself :
    Claims.AtOpcode false Config.opcJump Config.hardware
      { at_ State.reset 254 [0x54, 7] with x := #v[0, 0, 0, 0, 0, 0, 0, 254] } ∧
    (at_ State.reset 254 [0x54, 7]).mem.read 255 = 7 ∧ (254 : Byte).toNat = (254 : Pc).toNat := by
  unfold Claims.AtOpcode; decide

/-- A state with the given flag register and `pc` = 254. -/
def withFl (v : Byte) : State := { State.reset with fl := v, pc := 254 }

theorem witness_JumpIfEqualTestsBitZero :
    ((7 : Byte).toNat < 8 ∧ (withFl 1).fl.getLsbD 0 = true) ∧
    ((withFl 2).fl.getLsbD 0 = false ∧ (withFl 2).pc.toNat + 2 ≤ 256) ∧ 8 ≤ (8 : Byte).toNat ∧
    Claims.AtOpcode false Config.opcJumpIfEqual Config.hardware (atOpcode Config.opcJumpIfEqual 254) ∧
    Claims.AtOpcode false Config.opcJumpIfEqual Config.hardware
      (atOpcode Config.opcJumpIfEqual 255) := by
  unfold Claims.AtOpcode; decide

theorem witness_JumpIfNotEqualTestsBitZero :
    ((7 : Byte).toNat < 8 ∧ (withFl 0).fl.getLsbD 0 = false ∧ (withFl 4).fl.getLsbD 0 = false) ∧
    ((withFl 1).fl.getLsbD 0 = true ∧ (withFl 1).pc.toNat + 2 ≤ 256) ∧ 8 ≤ (8 : Byte).toNat ∧
    Claims.AtOpcode false Config.opcJumpIfNotEqual Config.hardware
      (atOpcode Config.opcJumpIfNotEqual 254) ∧
    Claims.AtOpcode false Config.opcJumpIfNotEqual Config.hardware
      (atOpcode Config.opcJumpIfNotEqual 255) := by
  unfold Claims.AtOpcode; decide

theorem witness_AddWritesWrappedSum :
    ((7 : Byte).toNat < 8 ∧ (0 : Byte).toNat < 8 ∧ (at_ State.reset 253 []).pc.toNat + 3 ≤ 256) ∧
    (8 ≤ (8 : Byte).toNat ∨ 8 ≤ (0 : Byte).toNat) ∧ (8 ≤ (0 : Byte).toNat ∨ 8 ≤ (8 : Byte).toNat) ∧
    Claims.AtOpcode true Config.opcAdd withExt (at_ State.reset 253 [0xA0]) ∧
    Claims.AtOpcode true Config.opcAdd withExt (at_ State.reset 254 [0xA0]) := by
  unfold Claims.AtOpcode; decide

theorem witness_SubtractWritesWrappedDifference :
    ((7 : Byte).toNat < 8 ∧ (0 : Byte).toNat < 8 ∧ (at_ State.reset 253 []).pc.toNat + 3 ≤ 256) ∧
    (8 ≤ (8 : Byte).toNat ∨ 8 ≤ (0 : Byte).toNat) ∧ (8 ≤ (0 : Byte).toNat ∨ 8 ≤ (8 : Byte).toNat) ∧
    Claims.AtOpcode true Config.opcSubtract withExt (at_ State.reset 253 [0xA1]) ∧
    Claims.AtOpcode true Config.opcSubtract withExt (at_ State.reset 254 [0xA1]) := by
  unfold Claims.AtOpcode; decide

theorem witness_AddSubtractExistOnlyWithTheExtension :
    Config.hardware.extAddSub = false ∧ (at_ State.reset 255 [0xA0]).running = true ∧
    (at_ State.reset 255 [0xA0]).pc.toNat < 256 ∧
    (at_ State.reset 255 [0xA0]).mem.read 255 = Config.hardware.opcAdd ∧
    (at_ State.reset 255 [0xA1]).mem.read 255 = Config.hardware.opcSubtract ∧
    (at_ State.reset 255 [0xA0]).mem.read 255 ∉ baseTable.map (Mnemonic.opcode Config.hardware) := by
  decide

/-! ## Witnesses of the whole-machine rules -/

theorem test_reset_inv : State.reset.Inv :=
  ⟨by decide, by decide, by decide, by decide, by decide⟩

/-- The invariant at the top: `pc` = 256 and `sp` = 0 with `fl` = 4. -/
theorem test_inv_boundary :
    ({ State.reset with pc := 256, sp := 0, fl := 4, mem := [(0, 1), (255, 1)] } : State).Inv :=
  ⟨by decide, by decide, by decide, by decide, by decide⟩

theorem witness_EveryStepKeepsTheInvariant :
    State.reset.Inv ∧ step State.reset = .next (Claims.faulted State.reset .decodeError) :=
  ⟨test_reset_inv, rfl⟩

/-- A session just created. -/
def session : Session := { engine := State.reset, canLoad := false }

/-- The engine with the one-byte program HALT loaded, before and after its one step. -/
def loaded : State := { State.reset with mem := [(0, 1)] }

/-- `loaded` after HALT. -/
def halted : State := { loaded with pc := 1, running := false }

theorem witness_LoadedMachineKeepsTheInvariant :
    session.reset.load [0x01] = .success { engine := loaded, canLoad := false } ∧
    State.stepsTo Config.hardware 1 loaded halted := ⟨rfl, halted, rfl, rfl⟩

theorem witness_FlagsAreWrittenByCompareAndReadByJumps :
    exec (.compare 0 7) State.reset = .next { State.reset with fl := 1, pc := 3 } ∧
    (1 : Byte) ≠ State.reset.fl ∧ State.reset.err = none ∧
    (∀ a, Instr.halt ≠ .jumpIfEqual a ∧ Instr.halt ≠ .jumpIfNotEqual a) ∧
    (6 : Byte).getLsbD 0 = State.reset.fl.getLsbD 0 ∧
    exec (.jumpIfEqual 7) State.reset = .next { State.reset with pc := 2 } :=
  ⟨rfl, by decide, rfl, fun _ => ⟨nofun, nofun⟩, rfl, rfl⟩

theorem witness_StackPointerMovesOnlyByPushAndPop :
    ((withSp 244).sp.toNat ≤ 244 ∧
      exec (.push 0) (withSp 244) = .next { withSp 243 with pc := 2 }) ∧
    ((withSp 0).sp.toNat ≤ 244 ∧ exec (.pop 0) (withSp 0) = .next { withSp 1 with pc := 2 }) ∧
    (∀ a, Instr.halt ≠ .push a ∧ Instr.halt ≠ .pop a) ∧
    exec .halt (withSp 0) = .next { withSp 0 with pc := 1, running := false } :=
  ⟨⟨by decide, rfl⟩, ⟨by decide, rfl⟩, fun _ => ⟨nofun, nofun⟩, rfl⟩

theorem witness_StackPointerStaysInItsBounds :
    (withSp 244).sp.toNat ≤ 244 ∧ (7 : Byte).toNat < 8 ∧ (withSp 0).sp = 0 ∧ (withSp 244).sp = 0xF4 ∧
    step (withSp 244) = .next (Claims.faulted (withSp 244) .decodeError) :=
  ⟨by decide, by decide, rfl, rfl, rfl⟩

/-- A state with `x[0]` = 42 and the given stack pointer. -/
def pushing (v : Addr) : State := { withSp v with x := #v[42, 7, 0, 0, 0, 0, 0, 0] }

/-- Written at 243 and at 0, the ends of the range. -/
theorem witness_OnlyPushWritesMemory :
    (pushing 244).mem.wf = true ∧ (pushing 244).sp.toNat ≤ 244 ∧
    exec (.push 0) (pushing 244) = .next { pushing 243 with mem := [(243, 42)], pc := 2 } ∧
    Memory.read [(243, 42)] 243 ≠ (pushing 244).mem.read 243 ∧
    exec (.push 0) (pushing 1) = .next { pushing 0 with mem := [(0, 42)], pc := 2 } ∧
    Memory.read [(0, 42)] 0 ≠ (pushing 1).mem.read 0 :=
  ⟨rfl, by decide, rfl, by decide, rfl, by decide⟩

theorem witness_OutputIsAppendOnly :
    exec (.printReg 0) (pushing 244) = .next { pushing 244 with out := [42], pc := 2 } ∧
    step State.reset = .next (Claims.faulted State.reset .decodeError) := ⟨rfl, rfl⟩

theorem witness_OutputTextIsDecimalLines : (255 : Byte) ≠ 0 ∧ decimal 255 = ['2', '5', '5'] := by
  decide

theorem witness_RunningIsClearedByHaltOrFault :
    step halted = .next halted ∧ halted.running = false ∧
    step loaded = .next halted ∧ loaded.running = true ∧
    step State.reset = .next (Claims.faulted State.reset .decodeError) := ⟨rfl, rfl, rfl, rfl, rfl⟩

theorem witness_ErrorIsWrittenOncePerReset :
    State.reset.Inv ∧ step State.reset = .next (Claims.faulted State.reset .decodeError) ∧
    (Claims.faulted State.reset .decodeError).err ≠ State.reset.err ∧
    (Claims.faulted State.reset .decodeError).err ≠ none ∧
    State.stepsTo Config.hardware 1 (Claims.faulted State.reset .decodeError)
      (Claims.faulted State.reset .decodeError) :=
  ⟨test_reset_inv, rfl, by decide, by decide, _, rfl, rfl⟩

/-- MULTIPLY changes `x[0]`; other values in the registers it does not read meet the second premise. -/
theorem witness_RegistersReadAndWritten :
    exec (.multiply 0 1) (pushing 244) =
      .next { pushing 244 with x := #v[38, 7, 0, 0, 0, 0, 0, 0], pc := 3 } ∧
    (#v[38, 7, 0, 0, 0, 0, 0, 0] : Vector Byte 8)[(0 : Fin 8)] ≠ (pushing 244).x[(0 : Fin 8)] ∧
    ∀ r : Fin 8, (∃ a ∈ Claims.regsRead (.multiply 0 1) (pushing 244), a.toNat = r.val) →
      (#v[42, 7, 9, 9, 9, 9, 9, 9] : Vector Byte 8)[r] = (pushing 244).x[r] :=
  ⟨rfl, by decide, by decide⟩

/-! ## Witnesses of the memory, stack, host and control statements -/

theorem witness_MemReadFaultsPastTheTop : 255 < 256 ∧ 256 ≤ 256 := by decide

theorem witness_ReadGivesTheLastWrite :
    State.reset.mem.wf = true ∧ (255 : Addr).toNat < 256 ∧ (0 : Addr).toNat < 256 := by decide

theorem witness_CanonicalMemoryIsUnique :
    Memory.wf [(0, 1), (255, 2)] = true ∧
    ∀ n, n < 256 → Memory.read [(0, 1), (255, 2)] n = Memory.read [(0, 1), (255, 2)] n :=
  ⟨rfl, fun _ _ => rfl⟩

theorem witness_AccessesAreTheTable :
    (at_ State.reset 255 [0xFF]).running = true ∧ (at_ State.reset 255 [0xFF]).pc.toNat < 256 ∧
    decodeOpcode Config.hardware ((at_ State.reset 255 [0xFF]).mem.read 255) = none ∧
    decode Config.hardware (at_ (withSp 1) 254 [0x45, 7]).window = .ok (.push 7) [] ∧
    (Instr.push 7).wellFormed = true ∧ (at_ (withSp 1) 254 [0x45, 7]).sp ≠ 0 ∧
    decode Config.hardware (at_ (withSp 243) 254 [0x46, 7]).window = .ok (.pop 7) [] ∧
    (at_ (withSp 243) 254 [0x46, 7]).sp ≠ spInit ∧
    (∀ a, Instr.push 7 ≠ .pop a) ∧ (∀ a, Instr.pop 7 ≠ .push a) :=
  ⟨by decide, by decide, by decide, by decide, by decide, by decide, by decide, by decide,
    nofun, nofun⟩

/-- HALT reads address 0 only, so any memory that has HALT's byte there agrees on its accesses. -/
theorem witness_StepDependsOnlyOnItsAccesses :
    (∀ n, Access.read n ∈ loaded.accesses Config.hardware →
      Memory.read [(0, 1), (1, 9)] n = loaded.mem.read n) ∧ step loaded = .next halted := by
  refine ⟨fun n h => ?_, rfl⟩
  have : loaded.accesses Config.hardware = [.read 0] := by decide
  rw [this] at h
  cases h with
  | head => decide
  | tail _ h => cases h

/-- PUSH at 0 onto address 2, the address of the next instruction: HALT's byte, and an unrecognised one. -/
theorem witness_StoreIsSeenByTheNextFetch :
    Config.hardware.Valid ∧ (withSp 3).mem.wf = true ∧ (withSp 3).sp ≠ 0 ∧ (withSp 3).running = true ∧
    exec (.push 0) (withX (withSp 3) 1 0 0) =
      .next { withX (withSp 2) 1 0 0 with pc := 2, mem := [(2, 1)] } ∧
    (2 : Pc).toNat = ((withSp 3).sp - 1).toNat ∧ (1 : Byte) = Config.hardware.opcHalt ∧
    exec (.push 1) (withX (withSp 3) 1 0 0) = .next { withX (withSp 2) 1 0 0 with pc := 2 } ∧
    decodeOpcode Config.hardware 0 = none :=
  ⟨by decide, rfl, by decide, rfl, rfl, rfl, rfl, rfl, by decide⟩

/-- At `sp` = 244 and at `sp` = 1. -/
theorem witness_PushThenPopRestores :
    ((0 : Byte).toNat < 8 ∧ (7 : Byte).toNat < 8 ∧ (pushing 244).mem.wf = true ∧
      (pushing 244).sp ≠ 0 ∧ (pushing 244).sp.toNat ≤ 244 ∧ (pushing 1).sp ≠ 0) ∧
    exec (.push 0) (pushing 244) = .next { pushing 243 with mem := [(243, 42)], pc := 2 } ∧
    exec (.pop 7) { pushing 243 with mem := [(243, 42)], pc := 2 } =
      .next { pushing 244 with x := #v[42, 7, 0, 0, 0, 0, 0, 42], mem := [(243, 42)], pc := 4 } ∧
    exec (.push 0) (pushing 1) = .next { pushing 0 with mem := [(0, 42)], pc := 2 } ∧
    exec (.pop 0) { pushing 0 with mem := [(0, 42)], pc := 2 } =
      .next { pushing 1 with mem := [(0, 42)], pc := 4 } :=
  ⟨by decide, rfl, rfl, rfl, rfl⟩

/-- PUSH 0, PUSH 1, POP 6, POP 7 from `sp` = 2, the lowest the statement admits. -/
theorem witness_StackIsLastInFirstOut :
    ((pushing 2).mem.wf = true ∧ 2 ≤ (pushing 2).sp.toNat ∧ (pushing 2).sp.toNat ≤ 244) ∧
    exec (.push 0) (pushing 2) = .next { pushing 1 with mem := [(1, 42)], pc := 2 } ∧
    exec (.push 1) { pushing 1 with mem := [(1, 42)], pc := 2 } =
      .next { pushing 0 with mem := [(0, 7), (1, 42)], pc := 4 } ∧
    exec (.pop 6) { pushing 0 with mem := [(0, 7), (1, 42)], pc := 4 } =
      .next { pushing 1 with
        x := #v[42, 7, 0, 0, 0, 0, 7, 0], mem := [(0, 7), (1, 42)], pc := 6 } ∧
    exec (.pop 7) { pushing 1 with
        x := #v[42, 7, 0, 0, 0, 0, 7, 0], mem := [(0, 7), (1, 42)], pc := 6 } =
      .next { pushing 2 with
        x := #v[42, 7, 0, 0, 0, 0, 7, 42], mem := [(0, 7), (1, 42)], pc := 8 } :=
  ⟨by decide, rfl, rfl, rfl, rfl⟩

theorem witness_PushedValuesLieBelowTheTop :
    (pushing 0xF4).mem.wf = true ∧ (pushing 0xF4).sp = spInit ∧ (pushing 0xF4).err = none ∧
    (∀ a ∈ ([0, 1] : List Byte), a.toNat < 8) ∧
    Claims.pushes [0, 1] (pushing 0xF4)
      { pushing 242 with mem := [(242, 7), (243, 42)], pc := 4 } :=
  ⟨rfl, rfl, rfl, by decide, _, rfl, rfl, _, rfl, rfl, rfl⟩

/-- Equal, greater by one, less by one; no borrow at equality. -/
theorem witness_AddAndSubtractFunctionLaws :
    (128 : Byte).toNat ≤ (128 : Byte).toNat ∧ (127 : Byte).toNat < (128 : Byte).toNat := by decide

theorem witness_LoadPlacesTheImage :
    (1 ≤ ([1] : List Byte).length ∧ ([1] : List Byte).length ≤ 256) ∧
    (1 ≤ (List.replicate 256 (1 : Byte)).length ∧ (List.replicate 256 (1 : Byte)).length ≤ 256) ∧
    ([1] : List Byte)[0]? = some 1 ∧ ([1] : List Byte).length ≤ 1 := by
  simp only [List.length_replicate]; decide

theorem witness_LoadErrorChangesNothing :
    ([] : List Byte).length = 0 ∧ 256 < (List.replicate 257 (1 : Byte)).length := by
  simp only [List.length_replicate]; decide

theorem witness_LoadAfterRunIsRefused :
    ({ engine := loaded, canLoad := true } : Session).run Config.hardware 2 =
      some { engine := halted, canLoad := false } := rfl

theorem witness_RunReturnsExactlyWhenItStops :
    loaded.runFor Config.hardware 1 = some halted ∧ loaded.runFor Config.hardware 0 = none ∧
    State.stepsTo Config.hardware 1 loaded halted ∧ halted.running = false :=
  ⟨rfl, rfl, ⟨halted, rfl, rfl⟩, rfl⟩

/-- A run that ends by HALT and one that ends in a fault. -/
theorem witness_RunEndsCleanOrFaulted :
    loaded.Inv ∧ loaded.running = true ∧ loaded.runFor Config.hardware 1 = some halted ∧
    State.reset.Inv ∧ State.reset.running = true ∧
    State.reset.runFor Config.hardware 1 = some (Claims.faulted State.reset .decodeError) :=
  ⟨⟨by decide, by decide, by decide, by decide, by decide⟩, rfl, rfl, test_reset_inv, rfl, rfl⟩

/-- A jump to 255, which holds no opcode. -/
theorem witness_JumpTargetIsUncheckedUntilFetched :
    (1 : Byte).toNat < 8 ∧ (withX State.reset 0 255 0).running = true ∧
    (withX State.reset 0 255 0).err = none ∧
    exec (.jump 1) (withX State.reset 0 255 0) =
      .next { withX State.reset 0 255 0 with pc := 255 } ∧
    decodeOpcode Config.hardware ((withX State.reset 0 255 0).mem.read 255) = none :=
  ⟨by decide, rfl, rfl, rfl, by decide⟩

end Sys2Proof.Tests
end

section
/-! # Lemmas shared by the statements about the state (10_state.md) -/

namespace Sys2Proof.Machine

/-! ## What a step can do, down to the effects of its instruction -/

/-- An instruction that leaves no error has completed. -/
theorem completes_of_err_eq_none {i : Instr} {s t : State} (h : exec i s = .next t)
    (ht : t.err = none) : Completes s i t := by
  obtain hc | ⟨k, -, rfl⟩ := exec_cases h
  · exact hc
  · cases ht

/-- A step does nothing, raises a fault, or completes the instruction decoded at `pc` (R116). -/
theorem stepWith_outcomes {c : Config} {s t : State} (h : stepWith c s = .next t) :
    (s.running = false ∧ t = s) ∨ (s.running = true ∧ ∃ k, t = Claims.faulted s k) ∨
      (s.running = true ∧ ∃ i rest, decode c s.window = .ok i rest ∧ Completes s i t) := by
  obtain hidle | ⟨hr, k, -, ht⟩ | ⟨hr, i, hf, he⟩ := stepWith_cases h
  · exact .inl hidle
  · exact .inr (.inl ⟨hr, k, ht⟩)
  · obtain ⟨rest, hd⟩ := fetch_ok_iff.1 hf
    obtain hc | ⟨k, -, ht⟩ := exec_cases he
    · exact .inr (.inr ⟨hr, i, rest, hd, hc⟩)
    · exact .inr (.inl ⟨hr, k, ht⟩)

/-- The check an instruction fails looks at its operands, and at `sp` for PUSH and POP only. -/
theorem Faults.of_sp_eq {s s' : State} {i : Instr} {k : FaultKind} (h : Faults s i k)
    (hsp : ∀ a, i = .push a ∨ i = .pop a → s'.sp = s.sp) : Faults s' i k := by
  cases h with
  | registerIndex i hw => exact .registerIndex i hw
  | stackOverflow a ha hs => exact .stackOverflow a ha ((hsp a (.inl rfl)).trans hs)
  | stackUnderflow a ha hs => exact .stackUnderflow a ha ((hsp a (.inr rfl)).trans hs)

/-! ## One component through a completed instruction -/

section Components

variable {s t : State} {i : Instr} (h : Completes s i t)
include h

/-- A completed instruction leaves the error status. -/
theorem Completes.err_eq : t.err = s.err := by
  cases h with
  | jumpIfEqual => split <;> rfl
  | jumpIfNotEqual => split <;> rfl
  | _ => rfl

/-- A completed instruction leaves `running`, unless it is HALT. -/
theorem Completes.running_eq (hi : i ≠ .halt) : t.running = s.running := by
  cases h with
  | halt => exact absurd rfl hi
  | jumpIfEqual => split <;> rfl
  | jumpIfNotEqual => split <;> rfl
  | _ => rfl

/-- A completed instruction starts nothing. -/
theorem Completes.running_imp (ht : t.running = true) : s.running = true := by
  by_cases hi : i = .halt
  · subst hi; cases h; cases ht
  · exact h.running_eq hi ▸ ht

/-- A completed instruction leaves `fl`, or is a COMPARE that writes the comparison (R31). -/
theorem Completes.fl_cases :
    t.fl = s.fl ∨ ((∃ a b, i = .compare a b) ∧ ∃ u v, t.fl = aluCmp u v) := by
  cases h with
  | compare a b => exact .inr ⟨⟨a, b, rfl⟩, _, _, rfl⟩
  | jumpIfEqual => left; split <;> rfl
  | jumpIfNotEqual => left; split <;> rfl
  | _ => exact .inl rfl

/-- A completed instruction leaves `sp`, or is a PUSH above the bound 0 or a POP below `SP_INIT` (R28). -/
theorem Completes.sp_cases :
    t.sp = s.sp ∨ ((∃ a, i = .push a) ∧ s.sp ≠ 0 ∧ t.sp = s.sp - 1) ∨
      ((∃ a, i = .pop a) ∧ s.sp ≠ spInit ∧ t.sp = s.sp + 1) := by
  cases h with
  | push a _ hs => exact .inr (.inl ⟨⟨a, rfl⟩, hs, rfl⟩)
  | pop a _ hs => exact .inr (.inr ⟨⟨a, rfl⟩, hs, rfl⟩)
  | jumpIfEqual => left; split <;> rfl
  | jumpIfNotEqual => left; split <;> rfl
  | _ => exact .inl rfl

/-- A completed instruction leaves memory, or writes one byte at an address. -/
theorem Completes.mem_cases : t.mem = s.mem ∨ ∃ (a : Addr) (v : Byte), t.mem = s.mem.write a.toNat v := by
  cases h with
  | push => exact .inr ⟨_, _, rfl⟩
  | jumpIfEqual => left; split <;> rfl
  | jumpIfNotEqual => left; split <;> rfl
  | _ => exact .inl rfl

/-- A completed instruction leaves the output, or is a PRINT_REG that appends its register (R37). -/
theorem Completes.out_cases :
    t.out = s.out ∨
      ∃ (a : Byte) (_ : a.toNat < 8), i = .printReg a ∧ t.out = s.out ++ [s.x[a.toNat]] := by
  cases h with
  | printReg a ha => exact .inr ⟨a, ha, rfl, rfl⟩
  | jumpIfEqual => left; split <;> rfl
  | jumpIfNotEqual => left; split <;> rfl
  | _ => exact .inl rfl

end Components

/-- The sequential advance is a plain sum while it stays in 0 .. 256 (R26). -/
theorem advance_pc_toNat {s : State} {len : Pc} (h : s.pc.toNat + len.toNat ≤ 256) :
    (s.advance len).pc.toNat = s.pc.toNat + len.toNat := by
  rw [advance_pc, BitVec.toNat_add, Nat.mod_eq_of_lt (by omega)]

theorem jumpTo_pc_toNat (s : State) (v : Byte) : (s.jumpTo v).pc.toNat = v.toNat := by
  rw [jumpTo_pc, BitVec.toNat_setWidth, Nat.mod_eq_of_lt (by omega)]

/-- R26: a completed instruction adds its length to `pc`, or is a taken jump to its register. -/
theorem Completes.pc_cases {s t : State} {i : Instr} (h : Completes s i t)
    (hpc : s.pc.toNat + i.length ≤ 256) :
    (t.pc.toNat = s.pc.toNat + i.length ∧ (∀ a, i ≠ .jump a) ∧
        (∀ a, i = .jumpIfEqual a → equalBit s.fl = false) ∧
        (∀ a, i = .jumpIfNotEqual a → equalBit s.fl = true)) ∨
      ∃ (a : Byte) (_ : a.toNat < 8), t.pc.toNat = s.x[a.toNat].toNat ∧
        (i = .jump a ∨ (i = .jumpIfEqual a ∧ equalBit s.fl = true) ∨
          (i = .jumpIfNotEqual a ∧ equalBit s.fl = false)) := by
  cases h with
  | jump a ha => exact .inr ⟨a, ha, jumpTo_pc_toNat s _, .inl rfl⟩
  | jumpIfEqual a ha =>
    cases hb : equalBit s.fl with
    | true => exact .inr ⟨a, ha, jumpTo_pc_toNat s _, .inr (.inl ⟨rfl, rfl⟩)⟩
    | false => exact .inl ⟨advance_pc_toNat hpc, nofun, fun _ _ => rfl, nofun⟩
  | jumpIfNotEqual a ha =>
    cases hb : equalBit s.fl with
    | true => exact .inl ⟨advance_pc_toNat hpc, nofun, nofun, fun _ _ => rfl⟩
    | false => exact .inr ⟨a, ha, jumpTo_pc_toNat s _, .inr (.inr ⟨rfl, rfl⟩)⟩
  | _ => exact .inl ⟨advance_pc_toNat hpc, nofun, nofun, nofun⟩

/-- The bytes of a decoded instruction all lie in memory (R114). -/
theorem pc_add_length_le_of_decode {c : Config} {s : State} {i : Instr} {rest : List Byte}
    (h : decode c s.window = .ok i rest) : s.pc.toNat + i.length ≤ 256 := by
  have hf : s.fetch c = .ok i := fetch_ok_iff.2 ⟨rest, h⟩
  by_cases hpc : s.pc.toNat < 256
  · cases hd : decodeOpcode c (s.mem.read s.pc.toNat) with
    | none => rw [fetch_unrecognized hpc hd] at hf; cases hf
    | some m =>
      obtain ⟨hlen, j, -, -, hj, rfl, -⟩ | ⟨-, he⟩ := fetch_recognized hpc hd
      · cases hj.symm.trans hf; exact hlen
      · cases he.symm.trans hf
  · rw [fetch_past_top (Nat.not_lt.1 hpc)] at hf; cases hf

theorem aluCmp_cases (u v : Byte) : aluCmp u v = 1 ∨ aluCmp u v = 2 ∨ aluCmp u v = 4 := by
  unfold aluCmp
  split
  · exact .inl rfl
  · split
    · exact .inr (.inl rfl)
    · exact .inr (.inr rfl)

/-! ## The invariant -/

theorem faulted_keeps_inv {s : State} (hs : s.Inv) (k : FaultKind) : (Claims.faulted s k).Inv where
  mem_wf := hs.mem_wf
  pc_le := hs.pc_le
  sp_le := hs.sp_le
  fl_mem := hs.fl_mem
  no_err := nofun

theorem Completes.keeps_mem_wf {s t : State} {i : Instr} (h : Completes s i t)
    (hm : s.mem.wf = true) : t.mem.wf = true := by
  obtain he | ⟨a, v, he⟩ := h.mem_cases
  · rw [he]; exact hm
  · rw [he]; exact write_keeps_wf v hm a.isLt

theorem Completes.keeps_pc_le {s t : State} {i : Instr} (h : Completes s i t)
    (hpc : s.pc.toNat + i.length ≤ 256) : t.pc.toNat ≤ 256 := by
  obtain ⟨he, -⟩ | ⟨a, ha, he, -⟩ := h.pc_cases hpc
  · omega
  · omega

/-- R29: the checks of PUSH and POP keep `sp` in its bounds. -/
theorem Completes.keeps_sp_le {s t : State} {i : Instr} (h : Completes s i t)
    (hsp : s.sp.toNat ≤ 244) : t.sp.toNat ≤ 244 := by
  obtain he | ⟨-, hne, he⟩ | ⟨-, hne, he⟩ := h.sp_cases
  · rw [he]; exact hsp
  · rw [he]; bv_omega
  · rw [he]; unfold spInit at hne; bv_omega

theorem Completes.keeps_fl_mem {s t : State} {i : Instr} (h : Completes s i t)
    (hf : s.fl = 0 ∨ s.fl = 1 ∨ s.fl = 2 ∨ s.fl = 4) :
    t.fl = 0 ∨ t.fl = 1 ∨ t.fl = 2 ∨ t.fl = 4 := by
  obtain he | ⟨-, u, v, he⟩ := h.fl_cases
  · rw [he]; exact hf
  · rw [he]; exact .inr (aluCmp_cases u v)

theorem Completes.keeps_inv {s t : State} {i : Instr} (h : Completes s i t) (hs : s.Inv)
    (hpc : s.pc.toNat + i.length ≤ 256) : t.Inv where
  mem_wf := h.keeps_mem_wf hs.mem_wf
  pc_le := h.keeps_pc_le hpc
  sp_le := h.keeps_sp_le hs.sp_le
  fl_mem := h.keeps_fl_mem hs.fl_mem
  no_err ht := h.err_eq.trans (hs.no_err (h.running_imp ht))

theorem stepWith_keeps_inv {c : Config} {s t : State} (hs : s.Inv) (h : stepWith c s = .next t) :
    t.Inv := by
  obtain ⟨-, rfl⟩ | ⟨-, k, rfl⟩ | ⟨-, i, rest, hd, hc⟩ := stepWith_outcomes h
  · exact hs
  · exact faulted_keeps_inv hs k
  · exact hc.keeps_inv hs (pc_add_length_le_of_decode hd)

/-! ## Noninterference: an instruction in a state with another value in one component -/

/-- With another `fl` that agrees on bit 0 where a conditional jump looks at it, an instruction completes
with the same values in every other component (R31). -/
theorem Completes.with_fl {s t : State} {i : Instr} (h : Completes s i t) {f : Byte}
    (hf : (∀ a, i ≠ .jumpIfEqual a ∧ i ≠ .jumpIfNotEqual a) ∨ equalBit f = equalBit s.fl) :
    ∃ u, Completes { s with fl := f } i u ∧ { u with fl := t.fl } = t := by
  cases h with
  | jumpIfEqual a ha =>
    have hb : equalBit f = equalBit s.fl := hf.resolve_left fun hne => (hne a).1 rfl
    refine ⟨_, .jumpIfEqual a ha, ?_⟩
    simp only [hb]; split <;> rfl
  | jumpIfNotEqual a ha =>
    have hb : equalBit f = equalBit s.fl := hf.resolve_left fun hne => (hne a).2 rfl
    refine ⟨_, .jumpIfNotEqual a ha, ?_⟩
    simp only [hb]; split <;> rfl
  | _ => exact ⟨_, by constructor <;> assumption, rfl⟩

/-- With another `sp`, an instruction that is no PUSH and no POP completes with the same values in every other
component, and leaves that `sp` (R28). -/
theorem Completes.with_sp {s t : State} {i : Instr} (h : Completes s i t)
    (hi : ∀ a, i ≠ .push a ∧ i ≠ .pop a) (v : Addr) :
    Completes { s with sp := v } i { t with sp := v } := by
  cases h with
  | push a => exact absurd rfl (hi a).1
  | pop a => exact absurd rfl (hi a).2
  | jumpIfEqual a ha => convert Completes.jumpIfEqual a ha using 1; split <;> rfl
  | jumpIfNotEqual a ha => convert Completes.jumpIfNotEqual a ha using 1; split <;> rfl
  | _ => constructor

/-- Whatever was emitted before, an instruction appends the same values and completes with the same values
in every other component (R37). -/
theorem Completes.with_out {s t : State} {i : Instr} (h : Completes s i t) (o : List Byte) :
    ∃ l, t.out = s.out ++ l ∧ Completes { s with out := o } i { t with out := o ++ l } := by
  cases h with
  | printReg a ha => exact ⟨_, rfl, .printReg a ha⟩
  | jumpIfEqual a ha =>
    refine ⟨[], by split <;> exact (List.append_nil _).symm, ?_⟩
    rw [List.append_nil]; convert Completes.jumpIfEqual a ha using 1; split <;> rfl
  | jumpIfNotEqual a ha =>
    refine ⟨[], by split <;> exact (List.append_nil _).symm, ?_⟩
    rw [List.append_nil]; convert Completes.jumpIfNotEqual a ha using 1; split <;> rfl
  | _ => exact ⟨[], (List.append_nil _).symm, by rw [List.append_nil]; constructor <;> assumption⟩

/-- The registers with the value stored in each register the operand bytes name. -/
def writeRegs (x : Vector Byte 8) : List Byte → Byte → Vector Byte 8
  | [], _ => x
  | a :: l, v => (writeRegs x l v).setIfInBounds a.toNat v

/-- A register that is named holds the stored value. -/
theorem writeRegs_of_mem {x : Vector Byte 8} {l : List Byte} {v : Byte} {r : Fin 8}
    (h : ∃ a ∈ l, a.toNat = r.val) : (writeRegs x l v)[r] = v := by
  induction l with
  | nil => obtain ⟨a, ha, -⟩ := h; cases ha
  | cons b l ih =>
    by_cases hb : b.toNat = r.val
    · simp [writeRegs, hb]
    · obtain ⟨a, ha, har⟩ := h
      have hal : a ∈ l := (List.mem_cons.1 ha).resolve_left fun e => hb (e ▸ har)
      simpa [writeRegs, Vector.getElem_setIfInBounds, hb] using ih ⟨a, hal, har⟩

/-- A register that is not named keeps its value. -/
theorem writeRegs_of_not_mem {x : Vector Byte 8} {l : List Byte} {v : Byte} {r : Fin 8}
    (h : ∀ a ∈ l, a.toNat ≠ r.val) : (writeRegs x l v)[r] = x[r] := by
  induction l with
  | nil => rfl
  | cons b l ih =>
    have hb := h b List.mem_cons_self
    simpa [writeRegs, Vector.getElem_setIfInBounds, hb] using
      ih fun a ha => h a (List.mem_cons_of_mem b ha)

/-- Writing a register of the file is storing at the one operand byte that names it. -/
theorem writeReg_x_eq_writeRegs (s : State) (a v : Byte) (ha : a.toNat < numRegs) :
    (s.writeReg ⟨a.toNat, ha⟩ v).x = writeRegs s.x [a] v := by
  ext r hr
  simp [writeRegs, Vector.getElem_setIfInBounds, Vector.getElem_set]

/-- With the registers `y`, instruction `i` completes as from `s` to `t` in every other component, and stores
the same value in the registers it writes (R42). -/
def CompletesAlike (s t : State) (i : Instr) (y : Vector Byte 8) : Prop :=
  ∃ u v, Completes { s with x := y } i u ∧ { u with x := t.x } = t ∧
    t.x = writeRegs s.x (Claims.regsWritten i) v ∧ u.x = writeRegs y (Claims.regsWritten i) v

/-- The in-place ALU instructions depend on no register but their two operands (R154, R157, R158). -/
theorem completesAlike_of_alu {s : State} {i : Instr} {y : Vector Byte 8} {f : Byte → Byte → Byte}
    {a b : Byte} (ha : a.toNat < numRegs) (hb : b.toNat < numRegs)
    (hi : ∀ s' : State, Completes s' i
      ((s'.writeReg ⟨a.toNat, ha⟩ (f s'.x[a.toNat] s'.x[b.toNat])).advance 3))
    (hw : Claims.regsWritten i = [a]) (hya : y[a.toNat] = s.x[a.toNat])
    (hyb : y[b.toNat] = s.x[b.toNat]) :
    CompletesAlike s ((s.writeReg ⟨a.toNat, ha⟩ (f s.x[a.toNat] s.x[b.toNat])).advance 3) i y := by
  have hc := hi { s with x := y }
  rw [hya, hyb] at hc
  refine ⟨_, f s.x[a.toNat] s.x[b.toNat], hc, rfl, ?_, ?_⟩ <;> rw [hw]
  · exact writeReg_x_eq_writeRegs s a _ ha
  · exact writeReg_x_eq_writeRegs _ a _ ha

/-- An instruction depends on no register but the ones the table says it reads (R42). -/
theorem Completes.with_x {s t : State} {i : Instr} (h : Completes s i t) {y : Vector Byte 8}
    (hy : ∀ r : Fin 8, (∃ a ∈ Claims.regsRead i s, a.toNat = r.val) → y[r] = s.x[r]) :
    CompletesAlike s t i y := by
  have hread (a : Byte) (ha : a.toNat < numRegs) (hr : a ∈ Claims.regsRead i s) :
      y[a.toNat] = s.x[a.toNat] := hy ⟨a.toNat, ha⟩ ⟨a, hr, rfl⟩
  have hfst (a : Byte) (l : List Byte) : a ∈ a :: l := List.mem_cons_self
  have hsnd (a b : Byte) : b ∈ [a, b] := List.mem_cons_of_mem a (hfst b [])
  have hset := writeReg_x_eq_writeRegs
  cases h with
  | halt => exact ⟨_, 0, .halt, rfl, rfl, rfl⟩
  | loadImmediate a v ha =>
    exact ⟨_, v, .loadImmediate a v ha, rfl, hset s a v ha, hset _ a v ha⟩
  | pop a ha hs => exact ⟨_, _, .pop a ha hs, rfl, hset s a _ ha, hset _ a _ ha⟩
  | printReg a ha =>
    refine ⟨_, 0, .printReg a ha, ?_, rfl, rfl⟩
    simp only [hread a ha (hfst a _)]; rfl
  | push a ha hs =>
    refine ⟨_, 0, .push a ha hs, ?_, rfl, rfl⟩
    simp only [hread a ha (hfst a _)]; rfl
  | compare a b ha hb =>
    refine ⟨_, 0, .compare a b ha hb, ?_, rfl, rfl⟩
    simp only [hread a ha (hfst a _), hread b hb (hsnd a b)]; rfl
  | jump a ha =>
    refine ⟨_, 0, .jump a ha, ?_, rfl, rfl⟩
    simp only [hread a ha (hfst a _)]; rfl
  | jumpIfEqual a ha =>
    refine ⟨_, 0, .jumpIfEqual a ha, ?_, by split <;> rfl, by split <;> rfl⟩
    cases hb : equalBit s.fl with
    | true =>
      have hr : a ∈ Claims.regsRead (.jumpIfEqual a) s := by
        simpa [Claims.regsRead, equalBit] using hb
      simp only [hread a ha hr]; rfl
    | false => rfl
  | jumpIfNotEqual a ha =>
    refine ⟨_, 0, .jumpIfNotEqual a ha, ?_, by split <;> rfl, by split <;> rfl⟩
    cases hb : equalBit s.fl with
    | true => rfl
    | false =>
      have hr : a ∈ Claims.regsRead (.jumpIfNotEqual a) s := by
        simpa [Claims.regsRead, equalBit] using hb
      simp only [hread a ha hr]; rfl
  | multiply a b ha hb =>
    exact completesAlike_of_alu ha hb (fun _ => .multiply a b ha hb) rfl
      (hread a ha (hfst a _)) (hread b hb (hsnd a b))
  | add a b ha hb =>
    exact completesAlike_of_alu ha hb (fun _ => .add a b ha hb) rfl
      (hread a ha (hfst a _)) (hread b hb (hsnd a b))
  | subtract a b ha hb =>
    exact completesAlike_of_alu ha hb (fun _ => .subtract a b ha hb) rfl
      (hread a ha (hfst a _)) (hread b hb (hsnd a b))

/-! ## Error codes -/

/-- The code in `err` is at most 5, and 0 exactly when no fault has occurred (R34, R200). -/
theorem errCode_range (s : State) : s.errCode ≤ 5 ∧ (s.errCode = 0 ↔ s.err = none) := by
  unfold State.errCode
  cases s.err with
  | none => decide
  | some k => cases k <;> decide

/-! ## Runs after a stop -/

/-- A stopped engine stays as it is for any number of steps (R120). -/
theorem stepsTo_of_halted {c : Config} {s : State} (hs : s.running = false) {n : Nat} {t : State}
    (h : State.stepsTo c n s t) : t = s := by
  induction n with
  | zero => exact h.symm
  | succ n ih =>
    obtain ⟨u, hu, ht⟩ := h
    cases (stepWith_of_halted hs).symm.trans hu
    exact ih ht

/-! ## The output channel: nothing reads it (R37) -/

/-- A fetch does not look at the output. -/
theorem fetch_with_out (c : Config) (s : State) (o : List Byte) :
    ({ s with out := o } : State).fetch c = s.fetch c := rfl

theorem exec_with_out {i : Instr} {s t : State} (h : exec i s = .next t) (o : List Byte) :
    ∃ l, t.out = s.out ++ l ∧ exec i { s with out := o } = .next { t with out := o ++ l } := by
  obtain hc | ⟨k, hk, rfl⟩ := exec_cases h
  · obtain ⟨l, hl, hu⟩ := hc.with_out o
    exact ⟨l, hl, exec_of_completes hu⟩
  · refine ⟨[], (List.append_nil _).symm, ?_⟩
    rw [List.append_nil]
    exact exec_of_faults (hk.of_sp_eq fun _ _ => rfl)

/-- A running engine whose fetch answers an instruction executes it (R115). -/
theorem stepWith_of_fetch_ok {c : Config} {s : State} {i : Instr} (hr : s.running = true)
    (hf : s.fetch c = .ok i) : stepWith c s = exec i s := by
  rw [stepWith_of_running hr, hf, attempt_ok]

/-- A running engine whose fetch raises a fault ends the step in it (R116). -/
theorem stepWith_of_fetch_error {c : Config} {s : State} {k : FaultKind} (hr : s.running = true)
    (hf : s.fetch c = .error k) : stepWith c s = .next (s.raise k) := by
  rw [stepWith_of_running hr, hf, attempt_error]

theorem stepWith_with_out {c : Config} {s t : State} (h : stepWith c s = .next t) (o : List Byte) :
    ∃ l, t.out = s.out ++ l ∧ stepWith c { s with out := o } = .next { t with out := o ++ l } := by
  obtain ⟨hr, rfl⟩ | ⟨hr, k, hf, rfl⟩ | ⟨hr, i, hf, he⟩ := stepWith_cases h
  · refine ⟨[], (List.append_nil _).symm, ?_⟩
    rw [List.append_nil]
    exact stepWith_of_halted hr
  · refine ⟨[], (List.append_nil _).symm, ?_⟩
    rw [List.append_nil]
    exact stepWith_of_fetch_error hr ((fetch_with_out c s o).trans hf)
  · obtain ⟨l, hl, hu⟩ := exec_with_out he o
    have hstep := stepWith_of_fetch_ok (s := { s with out := o }) hr ((fetch_with_out c s o).trans hf)
    exact ⟨l, hl, hstep.trans hu⟩

/-! ## The decimal numeral of an emitted value (R37, D11) -/

theorem digitChar_toNat {n : Nat} (h : n < 10) : (digitChar n).toNat = 48 + n := by
  interval_cases n <;> rfl

/-- A byte's numeral is one, two or three digits, the first not 0 when there are more. -/
theorem decimal_cases (v : Byte) :
    (v.toNat < 10 ∧ decimal v = [digitChar v.toNat]) ∨
      (∃ a b, 0 < a ∧ a < 10 ∧ b < 10 ∧ v.toNat = 10 * a + b ∧
        decimal v = [digitChar a, digitChar b]) ∨
      (∃ a b d, 0 < a ∧ a < 10 ∧ b < 10 ∧ d < 10 ∧ v.toNat = 10 * (10 * a + b) + d ∧
        decimal v = [digitChar a, digitChar b, digitChar d]) := by
  have hv := v.isLt
  by_cases h10 : v.toNat < 10
  · exact .inl ⟨h10, by simp only [decimal, if_pos h10]⟩
  · by_cases h100 : v.toNat < 100
    · refine .inr (.inl ⟨v.toNat / 10, v.toNat % 10, by omega, by omega, by omega, by omega, ?_⟩)
      simp only [decimal, if_neg h10, if_pos h100]
    · refine .inr (.inr ⟨v.toNat / 100, v.toNat / 10 % 10, v.toNat % 10, by omega, by omega, by omega,
        by omega, by omega, ?_⟩)
      simp only [decimal, if_neg h10, if_neg h100]

/-- A digit other than 0 is not shown as `0`. -/
theorem digitChar_ne_zero {n : Nat} (hpos : 0 < n) (h : n < 10) : digitChar n ≠ '0' := by
  intro he
  have h48 : 48 = 48 + n := (congrArg Char.toNat he).symm.trans (digitChar_toNat h)
  omega

theorem decimal_value (v : Byte) :
    (decimal v).foldl (fun n d => 10 * n + (d.toNat - 48)) 0 = v.toNat := by
  obtain ⟨h, hd⟩ | ⟨a, b, -, ha, hb, hv, hd⟩ | ⟨a, b, d, -, ha, hb, hd', hv, hd⟩ := decimal_cases v
  · simp [hd, digitChar_toNat h]
  · simp [hd, digitChar_toNat ha, digitChar_toNat hb, hv]
  · simp [hd, digitChar_toNat ha, digitChar_toNat hb, digitChar_toNat hd', hv]

theorem digitChar_range {n : Nat} (h : n < 10) :
    48 ≤ (digitChar n).toNat ∧ (digitChar n).toNat ≤ 57 := by
  rw [digitChar_toNat h]; omega

theorem decimal_digits (v : Byte) : ∀ d ∈ decimal v, 48 ≤ d.toNat ∧ d.toNat ≤ 57 := by
  obtain ⟨h, hd⟩ | ⟨a, b, -, ha, hb, -, hd⟩ | ⟨a, b, d, -, ha, hb, hd', -, hd⟩ := decimal_cases v
  · simp [hd, digitChar_range h]
  · simp [hd, digitChar_range ha, digitChar_range hb]
  · simp [hd, digitChar_range ha, digitChar_range hb, digitChar_range hd']

theorem decimal_no_leading_zero {v : Byte} (hv : v ≠ 0) : (decimal v).head? ≠ some '0' := by
  have hpos : 0 < v.toNat := by bv_omega
  obtain ⟨h, hd⟩ | ⟨a, b, h0, ha, -, -, hd⟩ | ⟨a, b, d, h0, ha, -, -, -, hd⟩ := decimal_cases v
  · simpa [hd] using digitChar_ne_zero hpos h
  · simpa [hd] using digitChar_ne_zero h0 ha
  · simpa [hd] using digitChar_ne_zero h0 ha

/-! ## The canonical form of memory -/

/-- A listed cell is not the default, so it differs from a memory that lists nothing up to its address. -/
theorem read_head_ne {m m' : Memory} {b lo : Nat} {w : Byte}
    (h : Memory.wfFrom lo ((b, w) :: m) = true) (h' : m'.wfFrom (b + 1) = true) :
    Memory.read ((b, w) :: m) b ≠ m'.read b := by
  obtain ⟨-, hw, -⟩ := wfFrom_cons.1 h
  rw [read_cons, if_pos rfl, read_below h' (Nat.lt_succ_self b)]
  exact hw

/-- Two memories canonical from the same address on that agree in every cell are equal. -/
theorem eq_of_wfFrom_of_read_eq {m : Memory} : ∀ {m' : Memory} {lo : Nat}, m.wfFrom lo = true →
    m'.wfFrom lo = true → (∀ n, n < 256 → m.read n = m'.read n) → m = m' := by
  induction m with
  | nil =>
    rintro (_ | ⟨⟨b, w⟩, m'⟩) lo - h' hr
    · rfl
    · obtain ⟨⟨-, hb⟩, -, -⟩ := wfFrom_cons.1 h'
      exact absurd (hr b hb).symm (read_head_ne h' rfl)
  | cons cell m ih =>
    obtain ⟨b, w⟩ := cell
    rintro (_ | ⟨⟨b', w'⟩, m'⟩) lo h h' hr
    · obtain ⟨⟨-, hb⟩, -, -⟩ := wfFrom_cons.1 h
      exact absurd (hr b hb) (read_head_ne h rfl)
    · obtain ⟨⟨-, hb⟩, hw, hm⟩ := wfFrom_cons.1 h
      obtain ⟨⟨-, hb'⟩, hw', hm'⟩ := wfFrom_cons.1 h'
      obtain hlt | rfl | hgt := Nat.lt_trichotomy b b'
      · exact absurd (hr b hb) (read_head_ne h (wfFrom_cons.2 ⟨⟨hlt, hb'⟩, hw', hm'⟩))
      · have hww : w = w' := by simpa [read_cons] using hr b hb
        have hmm : m = m' := ih hm hm' fun n hn => by
          obtain hle | hgt := Nat.lt_or_ge n (b + 1)
          · rw [read_below hm hle, read_below hm' hle]
          · have := hr n hn
            rwa [read_cons, read_cons, if_neg (by omega), if_neg (by omega)] at this
        rw [hww, hmm]
      · exact absurd (hr b' hb').symm (read_head_ne h' (wfFrom_cons.2 ⟨⟨hgt, hb⟩, hw, hm⟩))

end Sys2Proof.Machine

namespace Sys2Proof.Proofs

open Sys2Proof.Machine

/-- Settles O29: a step idles, faults or completes an instruction, and each keeps every component. -/
theorem everyStepKeepsTheInvariant : Obligations.EveryStepKeepsTheInvariant :=
  ⟨fun _ _ _ hs h => stepWith_keeps_inv hs h, fun _ _ hs h => stepWith_keeps_inv hs h⟩

/-- Settles O30, field by field of the reset table. -/
theorem resetMeetsTheInvariant : Obligations.ResetMeetsTheInvariant where
  mem_wf := wf_nil
  pc_le := Nat.zero_le memSize
  sp_le := Nat.le_refl spInit.toNat
  fl_mem := .inl reset_fl
  no_err _ := reset_err

/-- Settles O15: a fault leaves `pc`, and a completed instruction is a case of `Completes.pc_cases`. -/
theorem pcAdvancesOrJumps : Obligations.PcAdvancesOrJumps := by
  refine ⟨fun c s t hs h ht => ?_, fun i s t _ h ht hpc => ?_⟩
  · obtain ⟨-, rfl⟩ | ⟨-, k, rfl⟩ | ⟨-, i, rest, -, hc⟩ := stepWith_outcomes h
    · rfl
    · rfl
    · exact absurd (hc.err_eq.trans hs) ht
  · exact (completes_of_err_eq_none h ht).pc_cases hpc

/-- Settles O33: only COMPARE writes `fl`, by `Completes.fl_cases`; only bit 0 is read, by
`Completes.with_fl`. -/
theorem flagsAreWrittenByCompareAndReadByJumps :
    Obligations.FlagsAreWrittenByCompareAndReadByJumps := by
  refine ⟨fun i s t h hne => ?_, fun s t a b h _ ht => ?_, fun i s t f hf h => ?_⟩
  · obtain hc | ⟨k, -, rfl⟩ := exec_cases h
    · obtain he | ⟨hi, u, v, he⟩ := hc.fl_cases
      · exact absurd he hne
      · exact ⟨hi, he ▸ aluCmp_cases u v⟩
    · exact absurd (raise_fl s k) hne
  · cases completes_of_err_eq_none h ht
    exact aluCmp_cases _ _
  · obtain hc | ⟨k, hk, rfl⟩ := exec_cases h
    · obtain ⟨u, hu, he⟩ := hc.with_fl hf
      exact ⟨u, exec_of_completes hu, he⟩
    · exact ⟨_, exec_of_faults (hk.of_sp_eq fun _ _ => rfl), rfl⟩

/-- Settles O34: the moves are those of `Completes.sp_cases`; the rest is `Completes.with_sp`. -/
theorem stackPointerMovesOnlyByPushAndPop : Obligations.StackPointerMovesOnlyByPushAndPop := by
  refine ⟨fun i s t hsp h hne => ?_, fun i s t v hi h => ?_⟩
  · obtain hc | ⟨k, -, rfl⟩ := exec_cases h
    · obtain he | ⟨hi, h0, he⟩ | ⟨hi, -, he⟩ := hc.sp_cases
      · exact absurd he hne
      · exact .inl ⟨hi, by rw [he]; bv_omega⟩
      · exact .inr ⟨hi, by rw [he]; bv_omega⟩
    · exact absurd (raise_sp s k) hne
  · obtain hc | ⟨k, hk, rfl⟩ := exec_cases h
    · exact exec_of_completes (hc.with_sp hi v)
    · exact exec_of_faults (hk.of_sp_eq fun a ha => (ha.elim (hi a).1 (hi a).2).elim)

/-- Settles O35: the checks of PUSH and POP raise their fault at exactly the two bounds. -/
theorem stackPointerStaysInItsBounds : Obligations.StackPointerStaysInItsBounds := by
  refine ⟨Nat.le_refl 244, fun c s t hsp h => ?_, fun s a ha hs => ?_, fun s a ha hs => ?_⟩
  · obtain ⟨-, rfl⟩ | ⟨-, k, rfl⟩ | ⟨-, i, rest, -, hc⟩ := stepWith_outcomes h
    · exact hsp
    · exact hsp
    · exact hc.keeps_sp_le hsp
  · exact ⟨_, exec_of_faults (.stackOverflow a ha hs), rfl, rfl, rfl⟩
  · exact ⟨_, exec_of_faults (.stackUnderflow a ha hs), rfl, rfl, rfl⟩

/-- Settles O37: no fetch and no instruction looks at the output. -/
theorem outputIsAppendOnly : Obligations.OutputIsAppendOnly := by
  refine ⟨fun i s t h => ?_, fun c s t o h => stepWith_with_out h o⟩
  obtain hc | ⟨k, -, rfl⟩ := exec_cases h
  · exact hc.out_cases
  · exact .inl (raise_out s k)

/-- Settles O38, by the one, two or three digits of `decimal_cases`. -/
theorem outputTextIsDecimalLines : Obligations.OutputTextIsDecimalLines := by
  refine ⟨fun s v => by simp [State.outputText], fun v => ⟨decimal_value v, decimal_digits v,
    decimal_no_leading_zero, ?_⟩⟩
  rintro rfl
  rfl

/-- Settles O39: a completed instruction that is no HALT leaves `running`. -/
theorem runningIsClearedByHaltOrFault : Obligations.RunningIsClearedByHaltOrFault := by
  intro c s t h
  obtain ⟨hr, rfl⟩ | ⟨hr, k, rfl⟩ | ⟨hr, i, rest, hd, hc⟩ := stepWith_outcomes h
  · exact ⟨id, fun hr' => absurd (hr'.symm.trans hr) nofun⟩
  · exact ⟨fun _ => rfl, fun _ _ => .inr ⟨k, rfl⟩⟩
  · refine ⟨fun hr' => absurd (hr'.symm.trans hr) nofun, fun _ ht => .inl ?_⟩
    have hi : i = .halt := by
      by_contra hi
      exact absurd (((hc.running_eq hi).trans hr).symm.trans ht) nofun
    exact ⟨rest, hi ▸ hd, hc.err_eq⟩

/-- Settles O40: after an error the invariant says the engine is stopped, and a stopped engine idles. -/
theorem errorIsWrittenOncePerReset : Obligations.ErrorIsWrittenOncePerReset := by
  refine ⟨fun c s t h hne => ?_, fun _ _ => rfl, fun s => ?_, ⟨rfl, rfl, rfl, rfl, rfl⟩,
    fun c s t u n hs h ht hu => ?_⟩
  · obtain ⟨-, rfl⟩ | ⟨-, hk⟩ | ⟨-, i, rest, -, hc⟩ := stepWith_outcomes h
    · exact absurd rfl hne
    · exact hk
    · exact absurd hc.err_eq hne
  · exact errCode_range s
  · have hstop : t.running = false :=
      Bool.eq_false_iff.2 fun hr => ht ((stepWith_keeps_inv hs h).no_err hr)
    exact stepsTo_of_halted hstop hu

/-- Settles O41: by `Completes.with_x`, in the same registers for the frame and in others for the reads. -/
theorem registersReadAndWritten : Obligations.RegistersReadAndWritten := by
  refine ⟨fun i s t r h hne => ?_, fun i s t y hy h => ?_⟩
  · obtain hc | ⟨k, -, rfl⟩ := exec_cases h
    · obtain ⟨-, v, -, -, ht, -⟩ := hc.with_x (y := s.x) fun _ _ => rfl
      by_contra hw
      refine hne ?_
      rw [ht]
      exact writeRegs_of_not_mem fun a ha har => hw ⟨a, ha, har⟩
    · exact absurd rfl hne
  · obtain hc | ⟨k, hk, rfl⟩ := exec_cases h
    · obtain ⟨u, v, hu, he, ht, hux⟩ := hc.with_x hy
      refine ⟨u, exec_of_completes hu, he, fun _ _ r hr => ?_, fun r hr => ?_⟩
      · rw [ht, hux, writeRegs_of_mem hr, writeRegs_of_mem hr]
      · rw [hux]
        exact writeRegs_of_not_mem hr
    · exact ⟨_, exec_of_faults (hk.of_sp_eq fun _ _ => rfl), rfl, fun _ ht => (nomatch ht),
        fun _ _ => rfl⟩

/-- Settles O44, by induction on the two lists at once. -/
theorem canonicalMemoryIsUnique : Obligations.CanonicalMemoryIsUnique :=
  fun _ _ h h' hr => eq_of_wfFrom_of_read_eq h h' hr

/-- Settles O32: every value is the reset state's own field. -/
theorem resetValues : Obligations.ResetValues :=
  fun _ => ⟨rfl, fun r => by simp, rfl, rfl, rfl, rfl, rfl, fun _ => rfl, rfl, rfl⟩

end Sys2Proof.Proofs
end

section
/-! # Lemmas shared by the statements about memory and its interface (20_memory.md) -/

namespace Sys2Proof

/-! ## Decoding the bytes of a row found by its opcode -/

theorem Mnemonic.length_le (m : Mnemonic) : m.length ≤ maxLength := by
  cases m <;> decide

theorem Instr.length_le (i : Instr) : i.length ≤ maxLength := i.mnemonic.length_le

theorem Instr.length_pos (i : Instr) : 0 < i.length := Nat.le_add_right 1 _

/-- The encoding of an instruction whose row the lookup finds decodes to it, whatever follows. -/
theorem decode_encode_append {c : Config} {i : Instr}
    (hd : decodeOpcode c (i.mnemonic.opcode c) = some i.mnemonic) (rest : List Byte) :
    decode c (encode c i ++ rest) = .ok i rest := by
  obtain ⟨bs, hbs, ht⟩ := takeOperands_encode c i rest
  rw [hbs, decode_cons, hd]
  exact ht

/-- Every dispatch table has the row of HALT (R83). -/
theorem halt_mem_dispatchTable (c : Config) : Mnemonic.halt ∈ dispatchTable c := by
  unfold dispatchTable
  split <;> decide

namespace Machine

/-! ## The bytes a fetch depends on -/

theorem window_getElem?_of_lt {s : State} {k : Nat} (hk : k < maxLength)
    (hpc : s.pc.toNat + k < 256) : s.window[k]? = some (s.mem.read (s.pc.toNat + k)) := by
  rw [window_eq, if_pos (by omega)]
  match k, hk with
  | 0, _ => rfl
  | 1, _ => rw [if_pos hpc]; rfl
  | 2, _ => rw [if_pos (by omega), if_pos hpc]; rfl

/-- The bytes of an instruction stand at `pc` exactly when the bytes offered to the decoder begin with
them. -/
theorem holdsAtPc_iff_isPrefix {c : Config} {s : State} {i : Instr} :
    Claims.HoldsAtPc c s i ↔ encode c i <+: s.window := by
  rw [List.prefix_iff_getElem?]
  constructor
  · rintro ⟨hlen, hbytes⟩ k hk
    rw [length_encode] at hk
    have hmax := i.length_le
    rw [window_getElem?_of_lt (by omega) (by omega), hbytes k _ (List.getElem?_eq_getElem _)]
  · intro hw
    have hread (k : Nat) (hk : k < (encode c i).length) := window_getElem? (hw k hk)
    refine ⟨?_, fun k v hv => ?_⟩
    · have hpos := i.length_pos
      have hlast := (hread (i.length - 1) (by rw [length_encode]; omega)).1
      omega
    · obtain ⟨hk, rfl⟩ := List.getElem?_eq_some_iff.1 hv
      exact (hread k hk).2

/-- The one byte of a HALT is its opcode. -/
theorem holdsAtPc_halt_iff {c : Config} {s : State} :
    Claims.HoldsAtPc c s .halt ↔ s.pc.toNat < 256 ∧ s.mem.read s.pc.toNat = c.opcHalt := by
  refine ⟨fun ⟨hlen, hbytes⟩ => ⟨hlen, hbytes 0 _ rfl⟩, fun ⟨hlt, hop⟩ => ⟨hlt, fun k v hk => ?_⟩⟩
  obtain ⟨rfl, rfl⟩ : k = 0 ∧ c.opcHalt = v := by simpa [encode, List.getElem?_singleton] using hk
  exact hop

/-- A fetch where the bytes of an instruction stand answers it, when the lookup finds its row (R111). -/
theorem fetch_of_holdsAtPc {c : Config} {s : State} {i : Instr}
    (hd : decodeOpcode c (i.mnemonic.opcode c) = some i.mnemonic) (h : Claims.HoldsAtPc c s i) :
    s.fetch c = .ok i := by
  obtain ⟨rest, hw⟩ := holdsAtPc_iff_isPrefix.1 h
  exact fetch_ok_iff.2 ⟨rest, hw ▸ decode_encode_append hd rest⟩

/-- What a fetch that answers an instruction has found: the instruction's row by the byte at `pc`, and its
bytes from `pc` upward (R112 to R114). -/
theorem fetch_ok_facts {c : Config} {s : State} {i : Instr} (h : s.fetch c = .ok i) :
    decodeOpcode c (s.mem.read s.pc.toNat) = some i.mnemonic ∧ Claims.HoldsAtPc c s i := by
  by_cases hpc : s.pc.toNat < 256
  · cases hd : decodeOpcode c (s.mem.read s.pc.toNat) with
    | none => cases (fetch_unrecognized hpc hd).symm.trans h
    | some m =>
      obtain ⟨-, j, rest, -, hj, rfl, hw⟩ | ⟨-, he⟩ := fetch_recognized hpc hd
      · cases hj.symm.trans h
        exact ⟨rfl, holdsAtPc_iff_isPrefix.2 ⟨rest, hw.symm⟩⟩
      · cases he.symm.trans h
  · cases (fetch_past_top (Nat.not_lt.1 hpc)).symm.trans h

/-- An address a fetch reads: inside memory, and one of as many bytes as the opcode byte asks for. -/
theorem mem_fetchReads {c : Config} {s : State} {n : Nat} :
    n ∈ s.fetchReads c ↔
      n < 256 ∧ ∃ k < fetchLength c (s.mem.read s.pc.toNat), n = s.pc.toNat + k := by
  simp [State.fetchReads, and_comm, eq_comm]

theorem fetchLength_of_none {c : Config} {op : Byte} (h : decodeOpcode c op = none) :
    fetchLength c op = 1 := by
  simp only [fetchLength, h]

theorem fetchLength_of_some {c : Config} {op : Byte} {m : Mnemonic} (h : decodeOpcode c op = some m) :
    fetchLength c op = m.length := by
  simp only [fetchLength, h]

theorem fetchLength_pos (c : Config) (op : Byte) : 0 < fetchLength c op := by
  cases h : decodeOpcode c op with
  | none => rw [fetchLength_of_none h]; exact Nat.one_pos
  | some m => rw [fetchLength_of_some h]; exact Nat.le_add_right 1 _

/-- A fetch past the top of memory reads no cell (R52). -/
theorem fetchReads_past_top {c : Config} {s : State} (h : 256 ≤ s.pc.toNat) : s.fetchReads c = [] := by
  refine List.eq_nil_iff_forall_not_mem.2 fun n hn => ?_
  obtain ⟨hlt, k, -, rfl⟩ := mem_fetchReads.1 hn
  omega

/-- A fetch whose bytes all lie in memory reads them in order (R55). -/
theorem fetchReads_of_le {c : Config} {s : State}
    (h : s.pc.toNat + fetchLength c (s.mem.read s.pc.toNat) ≤ 256) :
    s.fetchReads c =
      (List.range (fetchLength c (s.mem.read s.pc.toNat))).map (s.pc.toNat + ·) := by
  refine List.filter_eq_self.2 fun n hn => ?_
  obtain ⟨k, hk, rfl⟩ := List.mem_map.1 hn
  have hlt := List.mem_range.1 hk
  simpa using (show s.pc.toNat + k < 256 by omega)

section OtherMemory

variable {c : Config} {s : State} {m : Memory} (hm : ∀ n ∈ s.fetchReads c, m.read n = s.mem.read n)
include hm

theorem read_pc_with_mem (hpc : s.pc.toNat < 256) : m.read s.pc.toNat = s.mem.read s.pc.toNat :=
  hm _ (mem_fetchReads.2 ⟨hpc, 0, fetchLength_pos c _, rfl⟩)

theorem fetchReads_with_mem : ({ s with mem := m } : State).fetchReads c = s.fetchReads c := by
  obtain hpc | hpc := Nat.lt_or_ge s.pc.toNat 256
  · simp only [State.fetchReads, read_pc_with_mem hm hpc]
  · rw [fetchReads_past_top hpc]
    exact fetchReads_past_top hpc

/-- Every byte of a fetched instruction is one the fetch reads. -/
theorem fetch_ok_with_mem {i : Instr} (hf : s.fetch c = .ok i) :
    ({ s with mem := m } : State).fetch c = .ok i := by
  obtain ⟨hrow, hlen, hbytes⟩ := fetch_ok_facts hf
  refine fetch_of_holdsAtPc ((mem_of_decodeOpcode hrow).2 ▸ hrow) ⟨hlen, fun k v hv => ?_⟩
  have hk : k < i.length := length_encode c i ▸ (List.getElem?_eq_some_iff.1 hv).1
  have hmem : s.pc.toNat + k ∈ s.fetchReads c :=
    mem_fetchReads.2 ⟨by omega, k, fetchLength_of_some hrow ▸ hk, rfl⟩
  exact (hm _ hmem).trans (hbytes k v hv)

/-- A fetch depends on the bytes it reads and on no others (R54). -/
theorem fetch_with_mem : ({ s with mem := m } : State).fetch c = s.fetch c := by
  obtain hpc | hpc := Nat.lt_or_ge s.pc.toNat 256
  · have hop := read_pc_with_mem hm hpc
    cases hd : decodeOpcode c (s.mem.read s.pc.toNat) with
    | none =>
      rw [fetch_unrecognized hpc hd]
      exact fetch_unrecognized hpc (hop ▸ hd)
    | some r =>
      obtain ⟨-, i, -, -, hi, -⟩ | ⟨hlen, he⟩ := fetch_recognized hpc hd
      · exact (fetch_ok_with_mem hm hi).trans hi.symm
      · obtain ⟨hle, -⟩ | ⟨-, he'⟩ :=
          fetch_recognized (s := { s with mem := m }) hpc (hop.symm ▸ hd)
        · exact absurd hle (Nat.not_le.2 hlen)
        · exact he'.trans he.symm
  · exact (fetch_past_top (s := { s with mem := m }) hpc).trans (fetch_past_top hpc).symm

end OtherMemory

/-! ## The data access of an instruction, and what an access list does to memory -/

@[simp] theorem wellFormed_push (a : Byte) : (Instr.push a).wellFormed = namesRegister a :=
  Bool.and_true _

@[simp] theorem wellFormed_pop (a : Byte) : (Instr.pop a).wellFormed = namesRegister a :=
  Bool.and_true _

theorem dataAccesses_push {s : State} {a : Byte} (ha : a.toNat < numRegs) (hs : s.sp ≠ 0) :
    dataAccesses (.push a) s = [.write (s.sp - 1).toNat s.x[a.toNat]] := by
  simp only [dataAccesses, regOperand_of_lt ha, show s.pushCheck = .ok () from if_neg hs]
  rfl

theorem dataAccesses_pop {s : State} {a : Byte} (ha : a.toNat < numRegs) (hs : s.sp ≠ spInit) :
    dataAccesses (.pop a) s = [.read s.sp.toNat] := by
  simp only [dataAccesses, regOperand_of_lt ha, show s.popCheck = .ok () from if_neg hs]

/-- An instruction that raises a fault has no data access (R117). -/
theorem Faults.dataAccesses_eq_nil {s : State} {i : Instr} {k : FaultKind} (h : Faults s i k) :
    dataAccesses i s = [] := by
  cases h with
  | registerIndex _ hw =>
    cases i with
    | push a =>
      have ha := namesRegister_eq_false.1 (wellFormed_push a ▸ hw)
      simp only [dataAccesses, regOperand_of_le ha]
    | pop a =>
      have ha := namesRegister_eq_false.1 (wellFormed_pop a ▸ hw)
      simp only [dataAccesses, regOperand_of_le ha]
    | _ => rfl
  | stackOverflow a ha hs =>
    simp only [dataAccesses, regOperand_of_lt ha,
      show s.pushCheck = .error .stackOverflow from if_pos hs]
  | stackUnderflow a ha hs =>
    simp only [dataAccesses, regOperand_of_lt ha,
      show s.popCheck = .error .stackUnderflow from if_pos hs]

/-- The data access is chosen by the operand, the registers and `sp`, not by memory. -/
theorem dataAccesses_with_mem (i : Instr) (s : State) (m : Memory) :
    dataAccesses i { s with mem := m } = dataAccesses i s := by
  cases i <;> rfl

/-- Reads leave memory. -/
theorem applyAccesses_reads (m : Memory) (l : List Nat) (rest : List Access) :
    m.applyAccesses (l.map .read ++ rest) = m.applyAccesses rest := by
  induction l with
  | nil => rfl
  | cons n l ih => exact ih

/-- With another memory that agrees where POP reads, an instruction completes with the same values in every
other component and does its data access to that memory. -/
theorem Completes.with_mem {s t : State} {i : Instr} (h : Completes s i t) {m : Memory}
    (hm : ∀ n, .read n ∈ dataAccesses i s → m.read n = s.mem.read n) :
    Completes { s with mem := m } i { t with mem := m.applyAccesses (dataAccesses i s) } := by
  cases h with
  | push a ha hs =>
    rw [dataAccesses_push ha hs]
    exact .push a ha hs
  | pop a ha hs =>
    rw [dataAccesses_pop ha hs] at hm ⊢
    rw [← hm _ (List.mem_singleton.2 rfl)]
    exact .pop a ha hs
  | jumpIfEqual a ha => convert Completes.jumpIfEqual a ha using 1; split <;> rfl
  | jumpIfNotEqual a ha => convert Completes.jumpIfNotEqual a ha using 1; split <;> rfl
  | _ => constructor

theorem exec_with_mem {s t : State} {i : Instr} (h : exec i s = .next t) {m : Memory}
    (hm : ∀ n, .read n ∈ dataAccesses i s → m.read n = s.mem.read n) :
    exec i { s with mem := m } = .next { t with mem := m.applyAccesses (dataAccesses i s) } := by
  obtain hc | ⟨k, hk, rfl⟩ := exec_cases h
  · exact exec_of_completes (hc.with_mem hm)
  · rw [hk.dataAccesses_eq_nil]
    exact exec_of_faults (hk.of_sp_eq fun _ _ => rfl)

/-! ## The accesses of a step -/

theorem accesses_of_halted {c : Config} {s : State} (hr : s.running = false) : s.accesses c = [] := by
  simp [State.accesses, hr]

theorem accesses_of_fetch_error {c : Config} {s : State} {k : FaultKind} (hr : s.running = true)
    (hf : s.fetch c = .error k) : s.accesses c = (s.fetchReads c).map .read := by
  simp [State.accesses, hr, hf]

theorem accesses_of_fetch_ok {c : Config} {s : State} {i : Instr} (hr : s.running = true)
    (hf : s.fetch c = .ok i) : s.accesses c = (s.fetchReads c).map .read ++ dataAccesses i s := by
  simp [State.accesses, hr, hf]

/-- The reads of its fetch are among the accesses of a step (R55). -/
theorem read_mem_accesses {c : Config} {s : State} (hr : s.running = true) {n : Nat}
    (hn : n ∈ s.fetchReads c) : .read n ∈ s.accesses c := by
  rw [State.accesses, if_pos hr]
  exact List.mem_append_left _ (List.mem_map_of_mem hn)

theorem accesses_with_mem {c : Config} {s : State} {m : Memory}
    (hm : ∀ n, .read n ∈ s.accesses c → m.read n = s.mem.read n) :
    ({ s with mem := m } : State).accesses c = s.accesses c := by
  obtain hr | hr := Bool.eq_false_or_eq_true s.running
  · have hreads := fun n hn => hm n (read_mem_accesses hr hn)
    simp only [State.accesses, fetch_with_mem hreads, fetchReads_with_mem hreads,
      dataAccesses_with_mem]
  · rw [accesses_of_halted hr]
    exact accesses_of_halted hr

theorem stepWith_with_mem {c : Config} {s t : State} (h : stepWith c s = .next t) {m : Memory}
    (hm : ∀ n, .read n ∈ s.accesses c → m.read n = s.mem.read n) :
    stepWith c { s with mem := m } = .next { t with mem := m.applyAccesses (s.accesses c) } := by
  obtain ⟨hr, rfl⟩ | ⟨hr, k, hf, rfl⟩ | ⟨hr, i, hf, he⟩ := stepWith_cases h
  · rw [accesses_of_halted hr]
    exact stepWith_of_halted hr
  · have hfetch := fetch_with_mem fun n hn => hm n (read_mem_accesses hr hn)
    have hkept : m.applyAccesses (s.accesses c) = m := by
      simpa [accesses_of_fetch_error hr hf, Memory.applyAccesses] using
        applyAccesses_reads m (s.fetchReads c) []
    rw [hkept]
    exact stepWith_of_fetch_error hr (hfetch.trans hf)
  · have hfetch := fetch_with_mem fun n hn => hm n (read_mem_accesses hr hn)
    have hacc := accesses_of_fetch_ok hr hf
    have hexec := exec_with_mem he fun n hn => hm n (hacc ▸ List.mem_append_right _ hn)
    rw [hacc, applyAccesses_reads]
    exact (stepWith_of_fetch_ok (s := { s with mem := m }) hr (hfetch.trans hf)).trans hexec

/-- Reading the file with a default is reading the register a valid operand byte names. -/
theorem getD_of_lt {x : Vector Byte numRegs} {a : Byte} (ha : a.toNat < numRegs) :
    x.getD a.toNat 0 = x[a.toNat] := by
  simp [Vector.getD, ha]

/-! ## What PUSH does to memory -/

/-- A completed instruction leaves memory, or is a PUSH that writes its register at `sp - 1` (R53). -/
theorem Completes.mem_eq_or_push {s t : State} {i : Instr} (h : Completes s i t) :
    t.mem = s.mem ∨ ∃ (a : Byte) (_ : a.toNat < 8), i = .push a ∧ s.sp ≠ 0 ∧
      t.mem = s.mem.write (s.sp - 1).toNat s.x[a.toNat] := by
  cases h with
  | push a ha hs => exact .inr ⟨a, ha, rfl, hs, rfl⟩
  | jumpIfEqual => left; split <;> rfl
  | jumpIfNotEqual => left; split <;> rfl
  | _ => exact .inl rfl

theorem addr_toNat_sub_one {p : Addr} (hp : p ≠ 0) :
    1 ≤ p.toNat ∧ (p - 1).toNat = p.toNat - 1 := by
  bv_omega

/-! ## The host interface -/

/-- A load of 1 .. 256 bytes after a reset stores them from address 0 (R61). -/
theorem load_reset_of_length {image : List Byte} (s : Session)
    (h : 1 ≤ image.length ∧ image.length ≤ 256) :
    s.reset.load image =
      .success { engine := State.reset.storeBytes 0 image, canLoad := false } := if_pos h

/-- A load of another number of bytes after a reset leaves the reset state (R62). -/
theorem load_reset_of_not_length {image : List Byte} (s : Session)
    (h : ¬(1 ≤ image.length ∧ image.length ≤ 256)) :
    s.reset.load image = .loadError { engine := State.reset, canLoad := false } := if_neg h

theorem storeBytes_keeps_inv {s : State} (hs : s.Inv) (a : Nat) (bs : List Byte) :
    (s.storeBytes a bs).Inv := by
  have hwf := storeBytes_keeps_wf bs s a hs.mem_wf
  rw [storeBytes_eq]
  exact { hs with mem_wf := hwf }

/-- Any number of steps keeps the invariant. -/
theorem stepsTo_keeps_inv {c : Config} {n : Nat} : ∀ {s t : State}, s.Inv → State.stepsTo c n s t →
    t.Inv := by
  induction n with
  | zero => rintro s t hs rfl; exact hs
  | succ n ih =>
    rintro s t hs ⟨u, hu, ht⟩
    exact ih (stepWith_keeps_inv hs hu) ht

/-- A run of a stopped engine returns it at once (R120). -/
theorem runFor_of_halted {c : Config} {s : State} (hs : s.running = false) (fuel : Nat) :
    s.runFor c fuel = some s := by
  cases fuel <;> simp [State.runFor, hs]

/-- A run of a running engine takes a step and goes on (R110). -/
theorem runFor_succ_of_running {c : Config} {s t : State} (hs : s.running = true)
    (h : stepWith c s = .next t) (fuel : Nat) : s.runFor c (fuel + 1) = t.runFor c fuel := by
  simp [State.runFor, hs, h]

/-- Zeroed memory holds no opcode at address 0 (R62). -/
theorem step_reset : step State.reset = .next (Claims.faulted State.reset .decodeError) :=
  stepWith_of_fetch_error rfl (fetch_unrecognized (by decide) (by decide))

end Machine

end Sys2Proof

namespace Sys2Proof.Proofs

open Sys2Proof.Machine

/-- Settles O46: the memory after the step in its own state is the case of the same memory. -/
theorem stepDependsOnlyOnItsAccesses : Obligations.StepDependsOnlyOnItsAccesses := by
  intro c s t m hm h
  have hself := stepWith_with_mem h (m := s.mem) fun _ _ => rfl
  have ht : t = { t with mem := s.mem.applyAccesses (s.accesses c) } :=
    Host.Outcome.next.inj (h.symm.trans hself)
  exact ⟨accesses_with_mem hm, stepWith_with_mem h hm, congrArg State.mem ht⟩

/-- Settles O31: the stored image keeps the invariant of the reset state, and so does every step. -/
theorem loadedMachineKeepsTheInvariant : Obligations.LoadedMachineKeepsTheInvariant := by
  intro c s s' image n t hload hsteps
  by_cases hlen : 1 ≤ image.length ∧ image.length ≤ 256
  · cases (load_reset_of_length s hlen).symm.trans hload
    exact stepsTo_keeps_inv (storeBytes_keeps_inv resetMeetsTheInvariant 0 image) hsteps
  · cases (load_reset_of_not_length s hlen).symm.trans hload

/-- Settles O36: a fault leaves memory, and a completed instruction that does not is the PUSH of
`Completes.mem_eq_or_push`. -/
theorem onlyPushWritesMemory : Obligations.OnlyPushWritesMemory := by
  intro i s t hwf hsp h n hne
  obtain hc | ⟨k, -, rfl⟩ := exec_cases h
  · obtain he | ⟨a, ha, rfl, hs, he⟩ := hc.mem_eq_or_push
    · exact absurd (congrArg (Memory.read · n) he) hne
    · obtain ⟨hpos, haddr⟩ := addr_toNat_sub_one hs
      rw [he, read_write _ _ hwf, haddr] at hne
      have hn : n = s.sp.toNat - 1 := by
        by_contra hn
        exact hne (if_neg hn)
      refine ⟨a, ha, rfl, hn, hpos, by omega, ?_⟩
      rw [he, read_write _ _ hwf, haddr, if_pos hn]
  · exact absurd rfl hne

/-- Settles O43: `read_write` below 256, where no read faults. -/
theorem readGivesTheLastWrite : Obligations.ReadGivesTheLastWrite := by
  intro s a v n hwf hn
  rw [memRead_of_lt hn, memRead_of_lt hn, memWrite_mem, read_write v n hwf]
  split <;> rfl

/-- Settles O45: the reads are those of the fetch, the data access that of the checks that pass. -/
theorem accessesAreTheTable : Obligations.AccessesAreTheTable := by
  intro c s hr hpc
  refine ⟨fun hd => ?_, fun i rest hdec hw hpush hpop => ?_⟩
  · have hlen := fetchLength_of_none hd
    rw [accesses_of_fetch_error hr (fetch_unrecognized hpc hd), fetchReads_of_le (by omega), hlen]
    rfl
  · have hf : s.fetch c = .ok i := fetch_ok_iff.2 ⟨rest, hdec⟩
    obtain ⟨hrow, hin, -⟩ := fetch_ok_facts hf
    have hlen : fetchLength c (s.mem.read s.pc.toNat) = i.length := fetchLength_of_some hrow
    rw [accesses_of_fetch_ok hr hf, fetchReads_of_le (by omega), hlen, List.map_map]
    congr 1
    cases i with
    | push a =>
      have ha := namesRegister_iff.1 (wellFormed_push a ▸ hw)
      simp only [dataAccesses_push ha (hpush a rfl), getD_of_lt ha]
    | pop a =>
      have ha := namesRegister_iff.1 (wellFormed_pop a ▸ hw)
      exact dataAccesses_pop ha (hpop a rfl)
    | _ => rfl

/-- Settles O47: the written byte is the one the fetch at `pc` offers the decoder. -/
theorem storeIsSeenByTheNextFetch : Obligations.StoreIsSeenByTheNextFetch := by
  intro c s t a ha hv hwf hs hr h
  obtain rfl := Host.Outcome.next.inj ((exec_of_completes (.push a ha hs)).symm.trans h)
  set t := ((s.setSp (s.sp - 1)).memWrite (s.sp - 1) s.x[a.toNat]).advance 2
  have hread : t.mem.read (s.sp - 1).toNat = s.x[a.toNat] := by
    rw [show t.mem = s.mem.write (s.sp - 1).toNat s.x[a.toNat] from rfl, read_write _ _ hwf, if_pos rfl]
  have hlt := (s.sp - 1).isLt
  refine ⟨(memRead_addr t _).trans (congrArg _ hread), fun hpc hop => ?_, fun hpc hd => ?_⟩
  · have hat : Claims.HoldsAtPc c t .halt := holdsAtPc_halt_iff.2 ⟨by omega, by rw [hpc, hread, hop]⟩
    exact stepWith_of_fetch_ok hr
      (fetch_of_holdsAtPc (decodeOpcode_opcode hv (halt_mem_dispatchTable c)) hat)
  · exact stepWith_of_fetch_error hr (fetch_unrecognized (by omega) (by rw [hpc, hread]; exact hd))

/-- Settles O54: the image is stored in the zeroed memory of the reset state. -/
theorem loadPlacesTheImage : Obligations.LoadPlacesTheImage := by
  intro s image hpos hle
  have hread (k : Nat) := read_storeBytes image State.reset 0 k rfl ((Nat.zero_add _).trans_le hle)
  refine ⟨_, load_reset_of_length s ⟨hpos, hle⟩, storeBytes_eq image _ 0,
    storeBytes_keeps_wf image _ 0 rfl, fun k v hk => ?_, fun k hk => ?_, fun _ => rfl⟩
  · obtain ⟨hlt, rfl⟩ := List.getElem?_eq_some_iff.1 hk
    exact (hread k).trans (dif_pos ⟨Nat.zero_le k, hlt⟩)
  · exact (hread k).trans (dif_neg (by omega))

/-- Settles O55: the engine is left at reset, where the first step raises `DecodeError`. -/
theorem loadErrorChangesNothing : Obligations.LoadErrorChangesNothing := by
  intro s image hlen
  refine ⟨_, load_reset_of_not_length s (by omega), rfl, step_reset, fun fuel => ?_⟩
  rw [Session.run, runFor_succ_of_running reset_running step_reset, runFor_of_halted rfl]
  rfl

/-- Settles O42, by the two cases of `memRead`; an 8-bit address is in the first. -/
theorem memReadFaultsPastTheTop : Obligations.MemReadFaultsPastTheTop :=
  fun s _ => ⟨memRead_of_lt, memRead_of_le, memRead_addr s⟩

end Sys2Proof.Proofs
end

section
/-! # Lemmas shared by the statements about the encoding (30_encoding.md) -/

namespace Sys2Proof

/-- What the decoder accepts: the bytes of an instruction whose row the lookup finds, and any after them. -/
theorem decode_eq_ok_iff {c : Config} {bs : List Byte} {i : Instr} {rest : List Byte} :
    decode c bs = .ok i rest ↔
      decodeOpcode c (i.mnemonic.opcode c) = some i.mnemonic ∧ bs = encode c i ++ rest := by
  constructor
  · intro h
    cases bs with
    | nil => cases h
    | cons op bs =>
      rw [decode_cons] at h
      cases hd : decodeOpcode c op with
      | none => rw [hd] at h; cases h
      | some m =>
        rw [hd] at h
        obtain ⟨-, rfl⟩ := mem_of_decodeOpcode hd
        obtain ⟨j, rest', ht, rfl, hbytes⟩ | ⟨ht, -⟩ := takeOperands_cases c m bs
        · cases ht.symm.trans h
          exact ⟨hd, hbytes⟩
        · cases ht.symm.trans h
  · rintro ⟨hd, rfl⟩
    exact decode_encode_append hd rest

/-- An opcode byte is recognised as the row of the instruction that the decoder answers on it. -/
theorem decodeOpcode_of_decode {c : Config} {op : Byte} {bs : List Byte} {i : Instr} {rest : List Byte}
    (h : decode c (op :: bs) = .ok i rest) : decodeOpcode c op = some i.mnemonic := by
  obtain ⟨hd, hbytes⟩ := decode_eq_ok_iff.1 h
  obtain ⟨operands, henc, -⟩ := takeOperands_encode c i rest
  obtain ⟨rfl, -⟩ := List.cons.inj (hbytes.trans henc)
  exact hd

/-- The decoder rejects bytes as unrecognised by their opcode byte alone (R90, R113). -/
theorem decode_eq_unrecognized_iff {c : Config} {op : Byte} {bs : List Byte} :
    decode c (op :: bs) = .unrecognized ↔ decodeOpcode c op = none := by
  rw [decode_cons]
  cases decodeOpcode c op with
  | none => simp
  | some m =>
    obtain ⟨i, rest, ht, -⟩ | ⟨ht, -⟩ := takeOperands_cases c m bs <;> simp [ht]

/-- An instruction exists in an instance exactly when its row is in the dispatch table (R83, R84). -/
theorem hasInstr_iff {c : Config} {i : Instr} : c.hasInstr i = true ↔ i.mnemonic ∈ dispatchTable c :=
  List.contains_iff_mem

/-- The byte values that are an opcode of this hardware, with the default bytes (R83, log entry 2). -/
theorem recognized_hardware_opcodes :
    (List.range 256).filter (fun n => (decodeOpcode Config.hardware (BitVec.ofNat 8 n)).isSome) =
      [0x01, 0x45, 0x46, 0x47, 0x54, 0x55, 0x56, 0x82, 0xA2, 0xA7] := by
  decide

end Sys2Proof

namespace Sys2Proof.Proofs

/-- Settles O1: the instruction's own row is what the lookup finds by its opcode byte. -/
theorem decodeOfEncodeIsIdentity : Obligations.DecodeOfEncodeIsIdentity :=
  fun _ hv _ rest hi => decode_encode_append (decodeOpcode_opcode hv (hasInstr_iff.1 hi)) rest

/-- Settles O2: the bytes are those of `decode_eq_ok_iff`, and a row the lookup finds is in the table. -/
theorem decodedBytesAreTheEncoding : Obligations.DecodedBytesAreTheEncoding := by
  intro c bs i rest h
  obtain ⟨hd, hbytes⟩ := decode_eq_ok_iff.1 h
  exact ⟨hbytes, hasInstr_iff.2 (mem_of_decodeOpcode hd).1⟩

/-- Settles O3: distinct opcode bytes make the lookup find each row of the table by its own; of the 256
byte values those not recognised are the rest. -/
theorem opcodeDecodeIsTotalLookup : Obligations.OpcodeDecodeIsTotalLookup := by
  have hcount : ((List.range 256).filter fun n =>
      (decodeOpcode Config.hardware (BitVec.ofNat 8 n)).isSome).length = 10 :=
    congrArg List.length recognized_hardware_opcodes
  refine ⟨fun c hv op m => ⟨mem_of_decodeOpcode, ?_⟩, fun _ _ => decodeOpcode_eq_none, hcount, ?_⟩
  · rintro ⟨hm, rfl⟩
    exact decodeOpcode_opcode hv hm
  · have hsplit := List.length_eq_length_filter_add (l := List.range 256)
      fun n => (decodeOpcode Config.hardware (BitVec.ofNat 8 n)).isSome
    simp only [Option.not_isSome, List.length_range] at hsplit
    omega

/-- Settles O4: the opcode byte alone decides the row, whose length the encoding has. -/
theorem lengthIsFixedByTheOpcode : Obligations.LengthIsFixedByTheOpcode := by
  intro c op bs bs'
  refine ⟨fun i rest i' rest' h h' => ?_, fun i rest h => ⟨?_, ?_⟩, fun h => ?_⟩
  · have hrow : i.mnemonic = i'.mnemonic :=
      Option.some.inj ((decodeOpcode_of_decode h).symm.trans (decodeOpcode_of_decode h'))
    exact ⟨congrArg Mnemonic.length hrow, hrow⟩
  · have hpos := i.length_pos
    have hle : i.length ≤ 3 := i.length_le
    omega
  · obtain ⟨-, hbytes⟩ := decode_eq_ok_iff.1 h
    rw [hbytes, List.drop_left' (length_encode c i)]
  · exact decode_eq_unrecognized_iff.2 (decode_eq_unrecognized_iff.1 h)

/-- Settles O5, by running the decoder on each word. -/
theorem sampleWordsDecode : Obligations.SampleWordsDecode := by
  unfold Obligations.SampleWordsDecode
  decide

end Sys2Proof.Proofs
end

section
/-! # Lemmas shared by the statements about the step and the run (40_step.md) -/

namespace Sys2Proof

/-- The default opcode bytes are pairwise distinct (R6, R83). -/
theorem hardware_valid : Config.hardware.Valid := by decide

/-- A table word is the instruction that the decoder of this hardware answers on its bytes. -/
theorem decodeTableWord_eq_some_iff {nbits w : Nat} {i : Instr} :
    decodeTableWord nbits w = some i ↔
      ∃ rest, decode Config.hardware (tableBytes nbits w) = .ok i rest := by
  unfold decodeTableWord
  cases decode Config.hardware (tableBytes nbits w) <;> simp

theorem length_tableBytes (nbits w : Nat) : (tableBytes nbits w).length = maxLength := by
  rw [tableBytes, List.length_map, List.length_range]

/-- The bytes of a row pass the top of memory exactly for F1 at 255 and F2 at 254 or 255 (R114). -/
theorem Mnemonic.past_top_iff {m : Mnemonic} {a : Nat} (ha : a < 256) :
    256 < a + m.length ↔
      (m.format = .f1 ∧ a = 255) ∨ (m.format = .f2 ∧ (a = 254 ∨ a = 255)) := by
  rw [Mnemonic.length]
  cases m.format <;> simp [Format.operands] <;> omega

namespace Machine

/-! ## Every step has a next state, and what kind of state it is -/

theorem exists_exec_next (i : Instr) (s : State) : ∃ t, exec i s = .next t := by
  obtain ⟨t, hc⟩ | ⟨k, hk⟩ := completes_or_faults i s
  · exact ⟨t, exec_of_completes hc⟩
  · exact ⟨s.raise k, exec_of_faults hk⟩

theorem exists_stepWith_next (c : Config) (s : State) : ∃ t, stepWith c s = .next t := by
  obtain hr | hr := Bool.eq_false_or_eq_true s.running
  · cases hf : s.fetch c with
    | error k => exact ⟨s.raise k, stepWith_of_fetch_error hr hf⟩
    | ok i =>
      rw [stepWith_of_fetch_ok hr hf]
      exact exists_exec_next i s
  · exact ⟨s, stepWith_of_halted hr⟩

theorem outcome_of_err_eq_none {t : State} (h : t.err = none) : t.outcome = .completed t := by
  simp only [State.outcome, h]

/-- A run that ended well left the engine halted clean (R35, R121). -/
theorem State.EndedWell.condition_eq {t : State} (h : t.EndedWell) : t.condition = .haltedClean := by
  obtain ⟨hr, he⟩ := h
  simp [State.condition, hr, he]

theorem not_endedWell_faulted (s : State) (k : FaultKind) : ¬(Claims.faulted s k).EndedWell :=
  fun ⟨_, he⟩ => nomatch he

/-! ## The fetch of stored bytes -/

/-- Bytes stored at `pc` that begin with the encoding of an instruction hold it at `pc`. -/
theorem holdsAtPc_storeBytes {c : Config} {s : State} {i : Instr} {bs : List Byte}
    (hwf : s.mem.wf = true) (hlen : s.pc.toNat + bs.length ≤ 256) (hi : encode c i <+: bs) :
    Claims.HoldsAtPc c (s.storeBytes s.pc.toNat bs) i := by
  have hle : i.length ≤ bs.length := length_encode c i ▸ hi.length_le
  rw [storeBytes_eq]
  refine ⟨(Nat.add_le_add_left hle s.pc.toNat).trans hlen, fun k v hv => ?_⟩
  obtain ⟨hk, rfl⟩ := List.getElem?_eq_some_iff.1 hv
  have hkb : k < bs.length := hk.trans_le hi.length_le
  have hin : s.pc.toNat ≤ s.pc.toNat + k ∧ s.pc.toNat + k - s.pc.toNat < bs.length := by omega
  rw [read_storeBytes bs s _ _ hwf hlen, dif_pos hin, hi.getElem hk]
  simp only [Nat.add_sub_cancel_left]

/-! ## The `AddressError` of a recognised opcode byte -/

/-- No check of an executing instruction raises `AddressError` (R115, R206). -/
theorem Faults.ne_addressError {s : State} {i : Instr} {k : FaultKind} (h : Faults s i k) :
    k ≠ .addressError := by
  cases h <;> nofun

/-- An instruction executed without an earlier error does not end in `AddressError`. -/
theorem exec_ne_addressError {i : Instr} {s : State} (he : s.err = none) :
    exec i s ≠ .next (Claims.faulted s .addressError) := by
  intro h
  obtain hc | ⟨k, hk, ht⟩ := exec_cases h
  · exact nomatch hc.err_eq.trans he
  · exact hk.ne_addressError (Option.some.inj (congrArg State.err ht)).symm

/-- A step on a recognised opcode byte ends in `AddressError` exactly when a byte of its row lies past the
top of memory (R114). -/
theorem stepWith_addressError_iff {c : Config} {s : State} {m : Mnemonic} (hr : s.running = true)
    (he : s.err = none) (hpc : s.pc.toNat < 256)
    (hd : decodeOpcode c (s.mem.read s.pc.toNat) = some m) :
    stepWith c s = .next (Claims.faulted s .addressError) ↔ 256 < s.pc.toNat + m.length := by
  obtain ⟨hle, i, -, -, hf, -, -⟩ | ⟨hlt, hf⟩ := fetch_recognized hpc hd
  · rw [stepWith_of_fetch_ok hr hf]
    exact iff_of_false (exec_ne_addressError he) (Nat.not_lt.2 hle)
  · exact iff_of_true (stepWith_of_fetch_error hr hf) hlt

/-! ## Runs -/

/-- A run that returns was stopped already, or took a step and returned from there (R110). -/
theorem runFor_cases {c : Config} {s t : State} {fuel : Nat} (h : s.runFor c fuel = some t) :
    (s.running = false ∧ t = s) ∨
      ∃ k u, fuel = k + 1 ∧ stepWith c s = .next u ∧ u.runFor c k = some t := by
  obtain hr | hr := Bool.eq_false_or_eq_true s.running
  · cases fuel with
    | zero => exact nomatch (if_pos hr).symm.trans h
    | succ k =>
      obtain ⟨u, hu⟩ := exists_stepWith_next c s
      exact .inr ⟨k, u, rfl, hu, runFor_succ_of_running hr hu k ▸ h⟩
  · exact .inl ⟨hr, (Option.some.inj ((runFor_of_halted hr fuel).symm.trans h)).symm⟩

/-- A run that returns has taken at most as many steps as its fuel, to a stopped state. -/
theorem exists_stepsTo_of_runFor {c : Config} {fuel : Nat} : ∀ {s t : State},
    s.runFor c fuel = some t → ∃ n ≤ fuel, State.stepsTo c n s t ∧ t.running = false := by
  induction fuel with
  | zero =>
    intro s t h
    obtain ⟨hr, rfl⟩ | ⟨_, _, hk, -⟩ := runFor_cases h
    · exact ⟨0, Nat.le_refl 0, rfl, hr⟩
    · cases hk
  | succ fuel ih =>
    intro s t h
    obtain ⟨hr, rfl⟩ | ⟨k, u, hk, hu, hrun⟩ := runFor_cases h
    · exact ⟨0, Nat.zero_le _, rfl, hr⟩
    · cases hk
      obtain ⟨n, hn, hsteps, ht⟩ := ih hrun
      exact ⟨n + 1, Nat.succ_le_succ hn, ⟨u, hu, hsteps⟩, ht⟩

/-- A run with fuel for the steps to a stopped state returns it (R119). -/
theorem runFor_of_stepsTo {c : Config} {n : Nat} : ∀ {s t : State} {fuel : Nat}, n ≤ fuel →
    State.stepsTo c n s t → t.running = false → s.runFor c fuel = some t := by
  induction n with
  | zero =>
    rintro s t fuel - rfl ht
    exact runFor_of_halted ht fuel
  | succ n ih =>
    intro s t fuel hn hsteps ht
    obtain hr | hr := Bool.eq_false_or_eq_true s.running
    · obtain ⟨u, hu, hrest⟩ := hsteps
      obtain ⟨k, rfl⟩ := Nat.exists_eq_succ_of_ne_zero (Nat.ne_of_gt (Nat.zero_lt_of_lt hn))
      exact (runFor_succ_of_running hr hu k).trans (ih (Nat.le_of_succ_le_succ hn) hrest ht)
    · rw [stepsTo_of_halted hr hsteps]
      exact runFor_of_halted hr fuel

/-- Steps from a running state to a stopped one have a last step, from a running state. -/
theorem exists_last_step {c : Config} {n : Nat} : ∀ {s t : State}, State.stepsTo c n s t →
    s.running = true → t.running = false →
    ∃ u k, State.stepsTo c k s u ∧ u.running = true ∧ stepWith c u = .next t := by
  induction n with
  | zero =>
    rintro s t rfl hr ht
    exact nomatch hr.symm.trans ht
  | succ n ih =>
    rintro s t ⟨u, hu, hrest⟩ hr ht
    obtain hur | hur := Bool.eq_false_or_eq_true u.running
    · obtain ⟨v, k, hv, hvr, hlast⟩ := ih hrest hur ht
      exact ⟨v, k + 1, ⟨u, hu, hv⟩, hvr, hlast⟩
    · rw [stepsTo_of_halted hur hrest]
      exact ⟨s, 0, rfl, hr, hu⟩

/-- The only completed instruction that stops the engine is HALT, which leaves `pc` one past it (R130). -/
theorem Completes.halt_of_stops {s t : State} {i : Instr} (h : Completes s i t)
    (hpc : s.pc.toNat + i.length ≤ 256) (hr : s.running = true) (ht : t.running = false) :
    i = .halt ∧ t.pc.toNat = s.pc.toNat + 1 := by
  by_cases hi : i = .halt
  · subst hi
    cases h
    exact ⟨rfl, advance_pc_toNat hpc⟩
  · exact nomatch ((h.running_eq hi).trans hr).symm.trans ht

end Machine

end Sys2Proof

namespace Sys2Proof.Proofs

open Sys2Proof.Machine

/-- Settles O6: the stored bytes begin with the encoding of the instruction the word decodes to. -/
theorem placedWordIsTheOneExecuted : Obligations.PlacedWordIsTheOneExecuted := by
  intro s nbits w i hwf hpc hword
  obtain ⟨rest, hdec⟩ := decodeTableWord_eq_some_iff.1 hword
  obtain ⟨hrow, hbytes⟩ := decode_eq_ok_iff.1 hdec
  have hlen : s.pc.toNat + (tableBytes nbits w).length ≤ 256 := by
    rw [length_tableBytes, maxLength]
    omega
  have hat := holdsAtPc_storeBytes hwf hlen ⟨rest, hbytes.symm⟩
  exact stepWith_of_fetch_ok (s := s.withFetchWord nbits w) rfl (fetch_of_holdsAtPc hrow hat)

/-- Settles O10: the fetch raises the fault, and the accesses are those of `accessesAreTheTable`. -/
theorem unrecognizedOpcodeFaults : Obligations.UnrecognizedOpcodeFaults := by
  intro c s hr hpc hrows
  have hd := decodeOpcode_eq_none.2 hrows
  exact ⟨stepWith_of_fetch_error hr (fetch_unrecognized hpc hd), rfl,
    (accessesAreTheTable c s hr hpc).1 hd⟩

/-- Settles O11: the fault is raised exactly when the row's bytes pass the top of memory, which the one byte
of a HALT does not. -/
theorem operandFetchFaultsExactlyAtTheTop : Obligations.OperandFetchFaultsExactlyAtTheTop := by
  intro c s m hr he hpc hd
  refine ⟨(stepWith_addressError_iff hr he hpc hd).trans (Mnemonic.past_top_iff hpc), fun n => ?_, ?_⟩
  · rw [mem_fetchReads, fetchLength_of_some hd, Mnemonic.length]
    refine and_congr_right fun _ => ⟨?_, fun ⟨hle, hlast⟩ => ⟨n - s.pc.toNat, by omega, by omega⟩⟩
    rintro ⟨k, hk, rfl⟩
    omega
  · rintro rfl
    have hop := (mem_of_decodeOpcode hd).2
    exact stepWith_of_fetch_ok hr
      (fetch_of_holdsAtPc (hop ▸ hd) (holdsAtPc_halt_iff.2 ⟨hpc, hop.symm⟩))

/-- Settles O13: of the outcomes of a step, a running engine faults or completes, and completing leaves
`err`. -/
theorem stepIsAllOrNothing : Obligations.StepIsAllOrNothing := by
  intro c s hr he
  obtain ⟨t, ht⟩ := exists_stepWith_next c s
  refine ⟨t, ht, ?_⟩
  obtain ⟨hr', -⟩ | ⟨-, k, rfl⟩ | ⟨-, i, rest, hd, hc⟩ := stepWith_outcomes ht
  · exact nomatch hr.symm.trans hr'
  · exact .inr ⟨k, rfl, rfl⟩
  · exact .inl ⟨i, rest, hd, exec_of_completes hc, outcome_of_err_eq_none (hc.err_eq.trans he)⟩

/-- Settles O57: a run returns exactly the stopped state that at most its fuel of steps reach. -/
theorem runReturnsExactlyWhenItStops : Obligations.RunReturnsExactlyWhenItStops := by
  refine fun c s t => ⟨⟨?_, ?_⟩, fun fuel n h => ?_⟩
  · rintro ⟨fuel, h⟩
    obtain ⟨n, -, hstop⟩ := exists_stepsTo_of_runFor h
    exact ⟨n, hstop⟩
  · rintro ⟨n, hsteps, ht⟩
    exact ⟨n, runFor_of_stepsTo (Nat.le_refl n) hsteps ht⟩
  · obtain ⟨k, hk, hsteps, ht⟩ := exists_stepsTo_of_runFor h
    exact runFor_of_stepsTo (hk.trans (Nat.le_add_right fuel n)) hsteps ht

/-- Settles O58: the last step of the run faulted, or completed an instruction that stopped the engine; the
invariant excludes an error before it. -/
theorem runEndsCleanOrFaulted : Obligations.RunEndsCleanOrFaulted := by
  intro c fuel s t hs hr h
  obtain ⟨_, -, hsteps, ht⟩ := exists_stepsTo_of_runFor h
  obtain ⟨u, n, hu, hur, hlast⟩ := exists_last_step hsteps hr ht
  refine ⟨u, n, hu, hur, hlast, ?_⟩
  obtain ⟨hur', -⟩ | ⟨-, k, rfl⟩ | ⟨-, i, rest, hd, hc⟩ := stepWith_outcomes hlast
  · exact nomatch hur.symm.trans hur'
  · exact .inr ⟨k, rfl, not_endedWell_faulted u k, rfl⟩
  · obtain ⟨rfl, hpc⟩ := hc.halt_of_stops (pc_add_length_le_of_decode hd) hur ht
    have hwell : t.EndedWell := ⟨ht, hc.err_eq.trans ((stepsTo_keeps_inv hs hu).no_err hur)⟩
    exact .inl ⟨hwell.condition_eq, hwell, hpc, rest, hd⟩

/-- Settles O7: the lookup finds the instruction's own row, so the fetch answers it. -/
theorem stepRunsTheDecodedInstruction : Obligations.StepRunsTheDecodedInstruction := by
  have hstep (c : Config) (s : State) (i : Instr) (hv : c.Valid) (hi : c.hasInstr i = true)
      (hr : s.running = true) (hat : Claims.HoldsAtPc c s i) : stepWith c s = exec i s :=
    stepWith_of_fetch_ok hr (fetch_of_holdsAtPc (decodeOpcode_opcode hv (hasInstr_iff.1 hi)) hat)
  exact ⟨hstep, fun s i => hstep Config.hardware s i hardware_valid⟩

/-- Settles O9, by the first byte of the window and by `fetch_past_top`. -/
theorem opcodeFetchReadsAtPc : Obligations.OpcodeFetchReadsAtPc := by
  refine fun c s hr => ⟨fun hpc => ?_, fun hpc => ?_⟩
  · rw [List.head?_eq_getElem?]
    exact window_getElem?_of_lt (by decide) hpc
  · have htop : 256 ≤ s.pc.toNat := by rw [hpc]; decide
    exact stepWith_of_fetch_error hr (fetch_past_top htop)

/-- Settles O12: a stopped engine idles, and a run of it returns at once. -/
theorem haltedEngineDoesNothing : Obligations.HaltedEngineDoesNothing :=
  fun _ _ hr => ⟨stepWith_of_halted hr, stepWith_of_halted hr, fun fuel _ => by
    rw [Session.run, runFor_of_halted hr fuel, Option.map_some]⟩

end Sys2Proof.Proofs
end

section
/-! # Lemmas shared by the statements about HALT and PRINT_REG (41_system.md) -/

namespace Sys2Proof

/-- The ten rows are in every dispatch table, with the optional ones or without (R83, R84). -/
theorem mem_dispatchTable_of_mem_baseTable {m : Mnemonic} (hm : m ∈ baseTable) (c : Config) :
    m ∈ dispatchTable c := by
  unfold dispatchTable
  split
  · exact List.mem_append_left _ hm
  · exact hm

theorem length_of_encode_eq_pair {c : Config} {i : Instr} {op a : Byte} (henc : encode c i = [op, a]) :
    i.length = 2 := (length_encode c i).symm.trans (congrArg List.length henc)

namespace Machine

@[simp] theorem wellFormed_printReg (a : Byte) : (Instr.printReg a).wellFormed = namesRegister a :=
  Bool.and_true _

/-- A fetch of a recognised opcode byte whose operand bytes pass the top of memory (R114). -/
theorem fetch_missing_operand {c : Config} {s : State} {m : Mnemonic} (hpc : s.pc.toNat < 256)
    (hd : decodeOpcode c (s.mem.read s.pc.toNat) = some m) (htop : 256 < s.pc.toNat + m.length) :
    s.fetch c = .error .addressError := by
  obtain ⟨hle, -⟩ | ⟨-, hf⟩ := fetch_recognized hpc hd
  · exact absurd htop (Nat.not_lt.2 hle)
  · exact hf

/-- A two-byte encoding stands at `pc` when its bytes are the one there and the next. -/
theorem holdsAtPc_of_encode_eq_pair {c : Config} {s : State} {i : Instr} {op a : Byte}
    (henc : encode c i = [op, a]) (hpc : s.pc.toNat ≤ 254) (hop : s.mem.read s.pc.toNat = op)
    (ha : s.mem.read (s.pc.toNat + 1) = a) : Claims.HoldsAtPc c s i := by
  have hlen := length_of_encode_eq_pair henc
  refine ⟨by omega, fun k v hk => ?_⟩
  rw [henc] at hk
  match k with
  | 0 => exact hop.trans (Option.some.inj hk)
  | 1 => exact ha.trans (Option.some.inj hk)

/-- A two-byte row of every table runs as its instruction, or lacks its operand at 255 (R111, R114). -/
theorem runsAsF1_of_encode_eq_pair {m : Mnemonic} {mk : Byte → Instr} (hm : m ∈ baseTable)
    (hmk : ∀ a, (mk a).mnemonic = m) (henc : ∀ c a, encode c (mk a) = [m.opcode c, a]) :
    Claims.RunsAsF1 m.opcode mk := by
  rintro c s ⟨hv, -, hr, hpc, (hop : _ = m.opcode c)⟩
  have hrow := decodeOpcode_opcode hv (mem_dispatchTable_of_mem_baseTable hm c)
  refine ⟨fun hle => ?_, fun htop => ?_⟩
  · have hat := holdsAtPc_of_encode_eq_pair (henc c _) hle hop rfl
    exact stepWith_of_fetch_ok hr (fetch_of_holdsAtPc (by rw [hmk]; exact hrow) hat)
  · have hlen : m.length = 2 := hmk 0 ▸ length_of_encode_eq_pair (henc c 0)
    have hd : decodeOpcode c (s.mem.read s.pc.toNat) = some m := hop ▸ hrow
    exact stepWith_of_fetch_error hr (fetch_missing_operand hpc hd (by omega))

end Machine

end Sys2Proof

namespace Sys2Proof.Proofs

open Sys2Proof.Machine

/-- Settles O16: HALT leaves a stopped engine, and any other completed instruction leaves `running`. -/
theorem haltStopsTheEngine : Obligations.HaltStopsTheEngine := by
  refine ⟨fun s _ => exec_of_completes .halt, ?_, fun c s t h => ?_, fun i s t hr h ht => ?_⟩
  · rintro c s ⟨hv, -, hr, hpc, hop⟩
    exact stepRunsTheDecodedInstruction.1 c s .halt hv (hasInstr_iff.2 (halt_mem_dispatchTable c)) hr
      (holdsAtPc_halt_iff.2 ⟨hpc, hop⟩)
  · obtain rfl := Host.Outcome.next.inj ((exec_of_completes .halt).symm.trans h)
    exact stepWith_of_halted rfl
  · obtain hc | ⟨k, -, rfl⟩ := exec_cases h
    · refine .inl (by_contra fun hi => ?_)
      exact nomatch ((hc.running_eq hi).trans hr).symm.trans ht
    · exact .inr ⟨k, rfl⟩

/-- Settles O18: PRINT_REG emits its register, which after LOAD_IMMEDIATE reads as the byte written. -/
theorem printRegEmitsRegister : Obligations.PrintRegEmitsRegister := by
  refine ⟨fun s a ha _ => exec_of_completes (.printReg a ha), fun s a ha => ?_,
    fun s t u a v ha ht hu => ?_, ?_⟩
  · have hwf : (Instr.printReg a).wellFormed = false :=
      (wellFormed_printReg a).trans (namesRegister_eq_false.2 ha)
    exact exec_of_not_wellFormed s hwf
  · obtain rfl := Host.Outcome.next.inj ((exec_of_completes (.loadImmediate a v ha)).symm.trans ht)
    obtain rfl := Host.Outcome.next.inj ((exec_of_completes (.printReg a ha)).symm.trans hu)
    simp
  · exact runsAsF1_of_encode_eq_pair (m := .printReg) (by decide) (fun _ => rfl) fun _ _ => rfl

end Sys2Proof.Proofs
end

section
/-! # Lemmas shared by the statements about the three-byte rows (42_load_immediate.md, 43_alu.md) -/

namespace Sys2Proof.Machine

@[simp] theorem wellFormed_loadImmediate (a v : Byte) :
    (Instr.loadImmediate a v).wellFormed = namesRegister a :=
  Bool.and_true _

/-- Where three bytes exist from `pc` upward, the decoder is offered all three (R55). -/
theorem window_eq_triple {s : State} (hpc : s.pc.toNat ≤ 253) :
    s.window = [s.mem.read s.pc.toNat, s.mem.read (s.pc.toNat + 1), s.mem.read (s.pc.toNat + 2)] := by
  rw [window_eq, if_pos (by omega), if_pos (by omega), if_pos (by omega)]

/-- A three-byte row runs as its instruction, or lacks an operand byte at 254 and 255 (R111, R114). The row
is in the table of every instance, or of every instance with the extension when `ext` asks for it (R84). -/
theorem runsAsF2_of_encode_eq_triple {ext : Bool} {m : Mnemonic} {mk : Byte → Byte → Instr}
    (hm : ∀ c : Config, (ext = true → c.extAddSub = true) → m ∈ dispatchTable c)
    (hmk : ∀ a b, (mk a b).mnemonic = m) (henc : ∀ c a b, encode c (mk a b) = [m.opcode c, a, b]) :
    Claims.RunsAsF2 ext m.opcode mk := by
  rintro c s ⟨hv, hext, hr, hpc, (hop : _ = m.opcode c)⟩
  have hrow := decodeOpcode_opcode hv (hm c hext)
  refine ⟨fun hle => ?_, fun htop => ?_⟩
  · have hw : encode c (mk (s.mem.read (s.pc.toNat + 1)) (s.mem.read (s.pc.toNat + 2))) = s.window := by
      rw [henc, window_eq_triple hle, hop]
    have hat := holdsAtPc_iff_isPrefix.2 ⟨[], (List.append_nil _).trans hw⟩
    exact stepWith_of_fetch_ok hr (fetch_of_holdsAtPc (by rw [hmk]; exact hrow) hat)
  · have hlen : m.length = 3 := hmk 0 0 ▸
      (length_encode c (mk 0 0)).symm.trans (congrArg List.length (henc c 0 0))
    have hd : decodeOpcode c (s.mem.read s.pc.toNat) = some m := hop ▸ hrow
    exact stepWith_of_fetch_error hr (fetch_missing_operand hpc hd (by omega))

end Sys2Proof.Machine

namespace Sys2Proof.Proofs

open Sys2Proof.Machine

/-- Settles O17: the effect of LOAD_IMMEDIATE, its one register check, and its row of three bytes. -/
theorem loadImmediateSetsRegister : Obligations.LoadImmediateSetsRegister := by
  refine ⟨fun s a v ha _ => exec_of_completes (.loadImmediate a v ha), fun s a v ha => ?_, ?_⟩
  · have hwf : (Instr.loadImmediate a v).wellFormed = false :=
      (wellFormed_loadImmediate a v).trans (namesRegister_eq_false.2 ha)
    exact exec_of_not_wellFormed s hwf
  · exact runsAsF2_of_encode_eq_triple (m := .loadImmediate)
      (fun c _ => mem_dispatchTable_of_mem_baseTable (by decide) c) (fun _ _ => rfl) fun _ _ _ => rfl

end Sys2Proof.Proofs
end

section
/-! # Lemmas shared by the statements about the ALU (43_alu.md) -/

namespace Sys2Proof

/-- The rows of the dispatch table: the ten, and with the extension ADD and SUBTRACT (R83, R84). -/
theorem mem_dispatchTable_iff {c : Config} {m : Mnemonic} :
    m ∈ dispatchTable c ↔ m ∈ baseTable ∨ (c.extAddSub = true ∧ (m = .add ∨ m = .subtract)) := by
  unfold dispatchTable
  split <;> simp [*]

/-- An instruction of the two optional rows exists exactly with the extension (R84, R156). -/
theorem hasInstr_iff_extAddSub {c : Config} {i : Instr}
    (hi : i.mnemonic = .add ∨ i.mnemonic = .subtract) :
    c.hasInstr i = true ↔ c.extAddSub = true := by
  have hbase : i.mnemonic ∉ baseTable := by
    obtain h | h := hi
    · rw [h]; decide
    · rw [h]; decide
  rw [hasInstr_iff, mem_dispatchTable_iff]
  exact ⟨fun h => (h.resolve_left hbase).1, fun hext => .inr ⟨hext, hi⟩⟩

/-- Without the extension, a byte that is no opcode of the ten rows is unrecognised (R90, R156). -/
theorem decodeOpcode_eq_none_of_not_mem_baseTable {c : Config} {op : Byte} (hext : c.extAddSub = false)
    (hop : op ∉ baseTable.map (Mnemonic.opcode c)) : decodeOpcode c op = none := by
  refine decodeOpcode_eq_none.2 fun m hm heq => ?_
  obtain hbase | ⟨htrue, -⟩ := mem_dispatchTable_iff.1 hm
  · exact hop (List.mem_map.2 ⟨m, hbase, heq⟩)
  · exact nomatch hext.symm.trans htrue

namespace Machine

/-! ## The ALU's functions are the operations of 8-bit vectors -/

theorem aluMul_eq_mul (u v : Byte) : aluMul u v = u * v :=
  BitVec.eq_of_toNat_eq (by simp [aluMul])

theorem aluAdd_eq_add (u v : Byte) : aluAdd u v = u + v :=
  BitVec.eq_of_toNat_eq (by simp [aluAdd])

theorem aluSub_eq_sub (u v : Byte) : aluSub u v = u - v := by
  apply BitVec.eq_of_toNat_eq
  rw [aluSub, BitVec.toNat_ofNat, BitVec.toNat_sub]
  split <;> omega

/-- The integer difference reduced modulo 256 is the difference of the bytes (R153). -/
theorem ofInt_emod_eq_sub (u v : Byte) :
    BitVec.ofInt 8 (((u.toNat : Int) - (v.toNat : Int)) % 256) = u - v := by
  apply BitVec.eq_of_toNat_eq
  rw [BitVec.toNat_ofInt, BitVec.toNat_sub]
  omega

/-! ## The three cases of the comparison (R152) -/

theorem aluCmp_of_eq {u v : Byte} (h : u.toNat = v.toNat) : aluCmp u v = 1 := if_pos h

theorem aluCmp_of_gt {u v : Byte} (h : v.toNat < u.toNat) : aluCmp u v = 2 :=
  (if_neg h.ne').trans (if_pos h)

theorem aluCmp_of_lt {u v : Byte} (h : u.toNat < v.toNat) : aluCmp u v = 4 :=
  (if_neg h.ne).trans (if_neg h.le.not_gt)

/-! ## The instructions with two register operands -/

/-- One operand byte from 8 upward, the first or the second, is `RegisterIndexError` (R88). -/
theorem exec_of_bad_operand_pair {i : Instr} {a b : Byte} (s : State) (hi : i.regOperands = [a, b])
    (h : 8 ≤ a.toNat ∨ 8 ≤ b.toNat) : exec i s = .next (Claims.faulted s .registerIndexError) := by
  refine exec_of_not_wellFormed s ?_
  rw [Instr.wellFormed, hi]
  obtain ha | hb := h
  · simp [namesRegister_eq_false.2 ha]
  · simp [namesRegister_eq_false.2 hb]

/-- No instruction but COMPARE writes `fl`, with or without a fault (R31, R155). -/
theorem exec_fl_of_ne_compare {i : Instr} {s t : State} (hi : ∀ a b, i ≠ .compare a b)
    (h : exec i s = .next t) : t.fl = s.fl := by
  obtain hc | ⟨k, -, rfl⟩ := exec_cases h
  · obtain hfl | ⟨⟨a, b, heq⟩, -⟩ := hc.fl_cases
    · exact hfl
    · exact absurd heq (hi a b)
  · exact raise_fl s k

end Machine

end Sys2Proof

namespace Sys2Proof.Proofs

open Sys2Proof.Machine

/-- Settles O19: the effect of MULTIPLY, its two register checks, and its row of three bytes. -/
theorem multiplyWritesWrappedProduct : Obligations.MultiplyWritesWrappedProduct := by
  refine ⟨fun s a b ha hb _ => exec_of_completes (.multiply a b ha hb),
    fun s a b h => exec_of_bad_operand_pair s rfl h, ?_⟩
  exact runsAsF2_of_encode_eq_triple (m := .multiply)
    (fun c _ => mem_dispatchTable_of_mem_baseTable (by decide) c) (fun _ _ => rfl) fun _ _ _ => rfl

/-- Settles O20: the effect of COMPARE, its two register checks, that it alone writes `fl`, and its row of
three bytes. -/
theorem compareWritesTheFlagRegister : Obligations.CompareWritesTheFlagRegister := by
  refine ⟨fun s a b ha hb _ => exec_of_completes (.compare a b ha hb),
    fun s a b h => exec_of_bad_operand_pair s rfl h, fun i s t hi h => exec_fl_of_ne_compare hi h, ?_⟩
  exact runsAsF2_of_encode_eq_triple (m := .compare)
    (fun c _ => mem_dispatchTable_of_mem_baseTable (by decide) c) (fun _ _ => rfl) fun _ _ _ => rfl

/-- Settles O26: the effect of ADD, its two register checks, and its row where the extension is. -/
theorem addWritesWrappedSum : Obligations.AddWritesWrappedSum := by
  refine ⟨fun s a b ha hb _ => exec_of_completes (.add a b ha hb),
    fun s a b h => exec_of_bad_operand_pair s rfl h, ?_⟩
  exact runsAsF2_of_encode_eq_triple (m := .add)
    (fun c hext => mem_dispatchTable_iff.2 (.inr ⟨hext rfl, .inl rfl⟩)) (fun _ _ => rfl) fun _ _ _ => rfl

/-- Settles O27: the effect of SUBTRACT, whose two forms of the difference agree, its two register checks, and
its row where the extension is. -/
theorem subtractWritesWrappedDifference : Obligations.SubtractWritesWrappedDifference := by
  refine ⟨fun s a b ha hb _ => ?_, fun s a b h => exec_of_bad_operand_pair s rfl h, ?_⟩
  · rw [ofInt_emod_eq_sub, ← aluSub_eq_sub]
    exact exec_of_completes (.subtract a b ha hb)
  · exact runsAsF2_of_encode_eq_triple (m := .subtract)
      (fun c hext => mem_dispatchTable_iff.2 (.inr ⟨hext rfl, .inr rfl⟩)) (fun _ _ => rfl)
      fun _ _ _ => rfl

/-- Settles O28: without the extension the lookup finds neither byte, and with it the table has the rows. -/
theorem addSubtractExistOnlyWithTheExtension : Obligations.AddSubtractExistOnlyWithTheExtension := by
  have hfault (c : Config) (s : State) (hext : c.extAddSub = false) (hr : s.running = true)
      (hpc : s.pc.toNat < 256) (hop : s.mem.read s.pc.toNat ∉ baseTable.map (Mnemonic.opcode c)) :
      stepWith c s = .next (Claims.faulted s .decodeError) :=
    stepWith_of_fetch_error hr
      (fetch_unrecognized hpc (decodeOpcode_eq_none_of_not_mem_baseTable hext hop))
  refine ⟨rfl, fun c s hext hr hpc _ hop => hfault c s hext hr hpc hop, fun s hr hpc hbyte => ?_,
    fun c a b => ⟨hasInstr_iff_extAddSub (.inl rfl), hasInstr_iff_extAddSub (.inr rfl),
      fun m => mem_dispatchTable_iff⟩⟩
  refine hfault Config.hardware s rfl hr hpc ?_
  obtain hadd | hsub := hbyte
  · rw [hadd]; decide
  · rw [hsub]; decide

/-- Settles O51: the laws are those of the product of 8-bit vectors. -/
theorem multiplyFunctionLaws : Obligations.MultiplyFunctionLaws := by
  refine ⟨fun u v => ?_, fun u v => ?_, fun u => ?_, fun u => ?_, fun u v => ?_, by decide⟩
  · rw [aluMul_eq_mul, BitVec.toNat_mul]
  · rw [aluMul_eq_mul, aluMul_eq_mul, BitVec.mul_comm]
  · rw [aluMul_eq_mul, mul_zero]
  · rw [aluMul_eq_mul, mul_one]
  · rw [aluMul_eq_mul, BitVec.ofInt_mul, BitVec.ofInt_toInt, BitVec.ofInt_toInt]

/-- Settles O52, by the three cases of the order. -/
theorem compareFunctionIsTrichotomy : Obligations.CompareFunctionIsTrichotomy := by
  refine ⟨fun u v => ?_, aluCmp_of_gt (by decide)⟩
  obtain hlt | heq | hgt := Nat.lt_trichotomy u.toNat v.toNat
  · simp [aluCmp_of_lt hlt, hlt, hlt.ne, hlt.le]
  · simp [aluCmp_of_eq heq, heq]
  · simp [aluCmp_of_gt hgt, hgt, hgt.ne', hgt.le]

/-- Settles O53: sum and difference of 8-bit vectors, which undo each other. -/
theorem addAndSubtractFunctionLaws : Obligations.AddAndSubtractFunctionLaws := by
  refine fun u v => ⟨?_, fun hle => ?_, fun hlt => ?_, ?_, ?_⟩
  · rw [aluAdd_eq_add, BitVec.toNat_add]
  · rw [aluSub_eq_sub, BitVec.toNat_sub_of_le hle]
  · rw [aluSub_eq_sub, BitVec.toNat_sub]
    omega
  · rw [aluAdd_eq_add, aluSub_eq_sub, BitVec.add_sub_cancel]
  · rw [aluSub_eq_sub, aluAdd_eq_add, BitVec.sub_add_cancel]

end Sys2Proof.Proofs
end

section
/-! # Lemmas shared by the statements about the stack (44_stack.md) -/

namespace Sys2Proof.Machine

/-- One register operand byte from 8 upward is `RegisterIndexError` (R88). -/
theorem exec_of_bad_operand {i : Instr} {a : Byte} (s : State) (hi : i.regOperands = [a])
    (h : 8 ≤ a.toNat) : exec i s = .next (Claims.faulted s .registerIndexError) := by
  refine exec_of_not_wellFormed s ?_
  rw [Instr.wellFormed, hi, List.all_cons, namesRegister_eq_false.2 h, Bool.false_and]

/-- Executing an instruction whose checks pass answers its effect and no other state. -/
theorem Completes.eq_of_exec {i : Instr} {s t u : State} (h : Completes s i u)
    (he : exec i s = .next t) : t = u :=
  (Host.Outcome.next.inj ((exec_of_completes h).symm.trans he)).symm

/-! ## One value pushed -/

/-- What a PUSH of the value `v` leaves of `s` that a later stack operation can see: the slot at the new `sp`
holds `v`, and no other byte is written (R170). -/
structure Pushed (s t : State) (v : Byte) : Prop where
  sp_ne : s.sp ≠ 0
  sp_eq : t.sp = s.sp - 1
  x_eq : t.x = s.x
  err_eq : t.err = s.err
  mem_wf : t.mem.wf = true
  read_eq : ∀ n, t.mem.read n = if n = t.sp.toNat then v else s.mem.read n

theorem Completes.pushed {s t : State} {a : Byte} (ha : a.toNat < 8) (hwf : s.mem.wf = true)
    (h : Completes s (.push a) t) : Pushed s t s.x[a.toNat] := by
  have hwf' := h.keeps_mem_wf hwf
  cases h with
  | push _ _ hs => exact ⟨hs, rfl, rfl, rfl, hwf', fun n => read_write s.x[a.toNat] n hwf⟩

/-- Above the bound 0 a PUSH of a register completes. -/
theorem pushed_of_exec {s t : State} {a : Byte} (ha : a.toNat < 8) (hwf : s.mem.wf = true)
    (hs : s.sp ≠ 0) (h : exec (.push a) s = .next t) : Pushed s t s.x[a.toNat] := by
  have hc : Completes s (.push a) _ := .push a ha hs
  exact (hc.eq_of_exec h ▸ hc).pushed ha hwf

section OnePush

variable {s t : State} {v : Byte} (h : Pushed s t v)
include h

theorem Pushed.sp_toNat : 1 ≤ s.sp.toNat ∧ t.sp.toNat = s.sp.toNat - 1 :=
  h.sp_eq ▸ addr_toNat_sub_one h.sp_ne

theorem Pushed.read_sp : t.mem.read t.sp.toNat = v := (h.read_eq _).trans (if_pos rfl)

theorem Pushed.read_of_ne {n : Nat} (hn : n ≠ t.sp.toNat) : t.mem.read n = s.mem.read n :=
  (h.read_eq n).trans (if_neg hn)

/-- A stack just pushed onto, from a state of the bounds of R29, is not empty. -/
theorem Pushed.sp_ne_spInit (hsp : s.sp.toNat ≤ 244) : t.sp ≠ spInit := by
  obtain ⟨hpos, hdec⟩ := h.sp_toNat
  intro heq
  have h244 : t.sp.toNat = 244 := congrArg BitVec.toNat heq
  omega

end OnePush

/-! ## A sequence of values pushed -/

/-- What pushing the registers `l` in turn leaves of `s`: the k-th of them lies `k + 1` below the `sp` it
started from, and every byte outside those slots is as it was (R172). -/
structure PushedAll (l : List Byte) (s t : State) : Prop where
  length_le : l.length ≤ s.sp.toNat
  sp_toNat : t.sp.toNat = s.sp.toNat - l.length
  x_eq : t.x = s.x
  read_slot : ∀ (k : Nat) (a : Byte), l[k]? = some a →
    t.mem.read (s.sp.toNat - (k + 1)) = s.x.getD a.toNat 0
  read_outside : ∀ n, n < s.sp.toNat - l.length ∨ s.sp.toNat ≤ n → t.mem.read n = s.mem.read n

theorem pushedAll_nil (s : State) : PushedAll [] s s where
  length_le := Nat.zero_le _
  sp_toNat := rfl
  x_eq := rfl
  read_slot _ _ hk := nomatch hk
  read_outside _ _ := rfl

/-- One PUSH before a sequence: its slot lies above those of the sequence, which leave it. -/
theorem Pushed.pushedAll_cons {s u t : State} {a : Byte} {l : List Byte}
    (h : Pushed s u (s.x.getD a.toNat 0)) (hl : PushedAll l u t) : PushedAll (a :: l) s t := by
  obtain ⟨hpos, hdec⟩ := h.sp_toNat
  have hlen := hl.length_le
  refine ⟨?_, ?_, hl.x_eq.trans h.x_eq, fun k b hk => ?_, fun n hn => ?_⟩
  · rw [List.length_cons]; omega
  · rw [hl.sp_toNat, List.length_cons]; omega
  · cases k with
    | zero =>
      obtain rfl : a = b := Option.some.inj hk
      rw [Nat.zero_add, ← hdec, hl.read_outside _ (.inr (Nat.le_refl _)), h.read_sp]
    | succ k =>
      rw [show s.sp.toNat - (k + 1 + 1) = u.sp.toNat - (k + 1) by omega, hl.read_slot k b hk, h.x_eq]
  · rw [List.length_cons] at hn
    rw [hl.read_outside n (by omega), h.read_of_ne (by omega)]

/-- A run of PUSH instructions none of which raises a fault pushes its registers. -/
theorem pushedAll_of_pushes {l : List Byte} : ∀ {s t : State}, s.mem.wf = true → s.err = none →
    (∀ a ∈ l, a.toNat < 8) → Claims.pushes l s t → PushedAll l s t := by
  induction l with
  | nil => rintro s _ - - - rfl; exact pushedAll_nil s
  | cons a l ih =>
    rintro s t hwf herr hl ⟨u, hu, hue, hrest⟩
    obtain ⟨ha, hl⟩ := List.forall_mem_cons.1 hl
    have hpush := (completes_of_err_eq_none hu (hue.trans herr)).pushed ha hwf
    rw [← getD_of_lt ha] at hpush
    exact hpush.pushedAll_cons (ih hpush.mem_wf (hue.trans herr) hl hrest)

end Sys2Proof.Machine

namespace Sys2Proof.Proofs

open Sys2Proof.Machine

/-- Settles O21: the effect of PUSH, what its one write leaves, its two checks, and its row of two bytes. -/
theorem pushStoresBelowTheStackPointer : Obligations.PushStoresBelowTheStackPointer := by
  refine ⟨fun s a ha hs _ => exec_of_completes (.push a ha hs), fun s t a ha hwf hs h => ?_,
    fun s a ha => exec_of_bad_operand s rfl ha,
    fun s a ha hs => exec_of_faults (.stackOverflow a ha hs), ?_⟩
  · have hpush := pushed_of_exec ha hwf hs h
    exact ⟨hpush.sp_toNat.2, hpush.sp_eq ▸ hpush.read_eq⟩
  · exact runsAsF1_of_encode_eq_pair (m := .push) (by decide) (fun _ => rfl) fun _ _ => rfl

/-- Settles O22: the effect of POP, whose increment does not wrap below `SP_INIT`, its two checks, and its
row of two bytes. -/
theorem popLoadsFromTheStackPointer : Obligations.PopLoadsFromTheStackPointer := by
  refine ⟨fun s a ha hsp _ => ?_, fun s a ha => exec_of_bad_operand s rfl ha,
    fun s a ha hs => exec_of_faults (.stackUnderflow a ha hs), ?_⟩
  · have hne : s.sp ≠ spInit := fun heq => hsp.ne (congrArg BitVec.toNat heq)
    exact ⟨exec_of_completes (.pop a ha hne), by bv_omega⟩
  · exact runsAsF1_of_encode_eq_pair (m := .pop) (by decide) (fun _ => rfl) fun _ _ => rfl

/-- Settles O48: POP reads the slot PUSH wrote, and its increment undoes the decrement. -/
theorem pushThenPopRestores : Obligations.PushThenPopRestores := by
  intro s t u a b ha hb hwf hs hsp ht hu
  have hpush := pushed_of_exec ha hwf hs ht
  obtain rfl := (Completes.pop b hb (hpush.sp_ne_spInit hsp)).eq_of_exec hu
  refine ⟨?_, ?_, hpush.err_eq, fun n hn => hpush.read_of_ne (hpush.sp_eq ▸ hn)⟩
  · rw [advance_sp, setSp_sp, hpush.sp_eq, BitVec.sub_add_cancel]
  · rw [advance_x, setSp_x, writeReg_x, hpush.read_sp, hpush.x_eq]

/-- Settles O49: the inner PUSH and POP restore what the outer PUSH left, so the outer POP reads its slot. -/
theorem stackIsLastInFirstOut : Obligations.StackIsLastInFirstOut := by
  intro s t u v w r1 r2 q1 q2 hr1 hr2 hq1 hq2 hwf hlo hhi ht hu hv hw
  have hs : s.sp ≠ 0 := by bv_omega
  have houter := pushed_of_exec hr1 hwf hs ht
  obtain ⟨-, hdec⟩ := houter.sp_toNat
  have ht0 : t.sp ≠ 0 := by bv_omega
  obtain ⟨hvsp, hvx, -, hvread⟩ :=
    pushThenPopRestores t u v r2 q1 hr2 hq1 houter.mem_wf ht0 (by omega) hu hv
  have hkept : v.mem.read v.sp.toNat = s.x[r1.toNat] := by
    rw [hvsp, hvread _ (by bv_omega), houter.read_sp]
  have hv0 : v.sp ≠ spInit := hvsp ▸ houter.sp_ne_spInit hhi
  obtain rfl := (Completes.pop q2 hq2 hv0).eq_of_exec hw
  refine ⟨?_, ?_, ?_⟩
  · simp only [hvx, Vector.getElem_set_self, houter.x_eq]
  · simp only [advance_x, setSp_x, writeReg_x, Vector.getElem_set_self, hkept]
  · rw [advance_sp, setSp_sp, hvsp, houter.sp_eq, BitVec.sub_add_cancel]

/-- Settles O50, the case of `pushedAll_of_pushes` with `sp` at `SP_INIT`. -/
theorem pushedValuesLieBelowTheTop : Obligations.PushedValuesLieBelowTheTop := by
  intro l s t hwf hsp herr hl h
  obtain ⟨hlen, hsp', hx, hslot, hout⟩ := pushedAll_of_pushes hwf herr hl h
  have h244 : s.sp.toNat = 244 := congrArg BitVec.toNat hsp
  simp only [h244] at hlen hsp' hslot hout
  exact ⟨hlen, hsp', hx, hslot, hout⟩

end Sys2Proof.Proofs
end

section
/-! # Lemmas shared by the statements about the jumps (45_branch.md) -/

namespace Sys2Proof.Machine

/-- A taken jump writes `pc` alone, with the register value zero-extended to nine bits (R180). -/
theorem jumpTo_eq (s : State) (v : Byte) : s.jumpTo v = { s with pc := BitVec.ofNat 9 v.toNat } := by
  rw [BitVec.ofNat_toNat]; rfl

/-- A jump to the address `pc` already holds leaves the state. -/
theorem jumpTo_eq_self {s : State} {v : Byte} (h : v.toNat = s.pc.toNat) : s.jumpTo v = s := by
  rw [jumpTo_eq, h, BitVec.ofNat_toNat, BitVec.setWidth_eq]

section Jumps

variable {s : State} {a : Byte} (ha : a.toNat < 8)
include ha

theorem exec_jump : exec (.jump a) s = .next (s.jumpTo s.x[a.toNat]) := exec_of_completes (.jump a ha)

/-! A conditional jump with a valid operand, by bit 0 of `fl` (R181, R182). -/

theorem exec_jumpIfEqual_of_set (h : s.fl.getLsbD 0 = true) :
    exec (.jumpIfEqual a) s = .next (s.jumpTo s.x[a.toNat]) :=
  (exec_of_completes (.jumpIfEqual a ha)).trans (congrArg _ (if_pos h))

theorem exec_jumpIfEqual_of_clear (h : s.fl.getLsbD 0 = false) :
    exec (.jumpIfEqual a) s = .next (s.advance 2) :=
  (exec_of_completes (.jumpIfEqual a ha)).trans (congrArg _ (if_neg (ne_true_of_eq_false h)))

theorem exec_jumpIfNotEqual_of_clear (h : s.fl.getLsbD 0 = false) :
    exec (.jumpIfNotEqual a) s = .next (s.jumpTo s.x[a.toNat]) :=
  (exec_of_completes (.jumpIfNotEqual a ha)).trans (congrArg _ (if_pos (congrArg not h)))

theorem exec_jumpIfNotEqual_of_set (h : s.fl.getLsbD 0 = true) :
    exec (.jumpIfNotEqual a) s = .next (s.advance 2) :=
  (exec_of_completes (.jumpIfNotEqual a ha)).trans
    (congrArg _ (if_neg (ne_true_of_eq_false (congrArg not h))))

end Jumps

end Sys2Proof.Machine

namespace Sys2Proof.Proofs

open Sys2Proof.Machine

/-- Settles O23: the effect of JUMP, its one register check, that a jump to `pc` itself idles, and its row of
two bytes. -/
theorem jumpGoesToTheRegister : Obligations.JumpGoesToTheRegister := by
  have hrow : Claims.RunsAsF1 Config.opcJump .jump :=
    runsAsF1_of_encode_eq_pair (m := .jump) (by decide) (fun _ => rfl) fun _ _ => rfl
  refine ⟨fun s a ha => jumpTo_eq s _ ▸ exec_jump ha, fun s a ha => exec_of_bad_operand s rfl ha,
    fun c s hat hle h hself => ?_, hrow⟩
  rw [(hrow c s hat).1 hle, exec_jump h, jumpTo_eq_self hself]

/-- Settles O24: the two effects of JUMP_IF_EQUAL by bit 0, its one register check, and its row of two
bytes. -/
theorem jumpIfEqualTestsBitZero : Obligations.JumpIfEqualTestsBitZero :=
  ⟨fun s _ ha hset => jumpTo_eq s _ ▸ exec_jumpIfEqual_of_set ha hset,
    fun _ _ ha hclear _ => exec_jumpIfEqual_of_clear ha hclear,
    fun s _ ha => exec_of_bad_operand s rfl ha,
    runsAsF1_of_encode_eq_pair (m := .jumpIfEqual) (by decide) (fun _ => rfl) fun _ _ => rfl⟩

/-- Settles O25: the two effects of JUMP_IF_NOT_EQUAL by bit 0, which are the opposite ones of JUMP_IF_EQUAL,
its one register check, and its row of two bytes. -/
theorem jumpIfNotEqualTestsBitZero : Obligations.JumpIfNotEqualTestsBitZero := by
  refine ⟨fun s a ha hclear => jumpTo_eq s _ ▸ exec_jumpIfNotEqual_of_clear ha hclear,
    fun s a ha hset _ => exec_jumpIfNotEqual_of_set ha hset,
    fun s a ha => exec_of_bad_operand s rfl ha, fun s a ha _ => ?_, ?_⟩
  · have htaken : (s.jumpTo s.x[a.toNat]).pc = BitVec.ofNat 9 s.x[a.toNat].toNat :=
      congrArg State.pc (jumpTo_eq s _)
    cases hbit : s.fl.getLsbD 0 with
    | true =>
      exact ⟨_, _, exec_jumpIfEqual_of_set ha hbit, exec_jumpIfNotEqual_of_set ha hbit,
        .inl ⟨htaken, rfl⟩⟩
    | false =>
      exact ⟨_, _, exec_jumpIfEqual_of_clear ha hbit, exec_jumpIfNotEqual_of_clear ha hbit,
        .inr ⟨rfl, htaken⟩⟩
  · exact runsAsF1_of_encode_eq_pair (m := .jumpIfNotEqual) (by decide) (fun _ => rfl) fun _ _ => rfl

/-- Settles O59: JUMP looks at its register alone, and the fetch at the target raises the fault. -/
theorem jumpTargetIsUncheckedUntilFetched : Obligations.JumpTargetIsUncheckedUntilFetched := by
  intro c s t a ha hr he h
  obtain rfl := (Completes.jump a ha).eq_of_exec h
  have hpc : (s.jumpTo s.x[a.toNat]).pc.toNat = s.x[a.toNat].toNat := jumpTo_pc_toNat s _
  refine ⟨he, hpc, fun hd => ⟨_, stepWith_of_fetch_error hr (fetch_unrecognized ?_ ?_), rfl, hpc⟩⟩
  · rw [hpc]; exact s.x[a.toNat].isLt
  · rw [hpc]; exact hd

end Sys2Proof.Proofs
end

section
/-! # Lemmas shared by the statements about the exceptions (60_exceptions.md) -/

namespace Sys2Proof.Machine

/-! The fault an instruction raises after its fetch, by its row: the stack check of a row comes after the
register check, and an instruction that passes both completes (R205). -/

theorem Faults.stackOverflow_of_mnemonic {s : State} {i : Instr} (hw : i.wellFormed = true)
    (hm : i.mnemonic = .push) (hs : s.sp = 0) : Faults s i .stackOverflow := by
  cases i with
  | push a => exact .stackOverflow a (namesRegister_iff.1 (wellFormed_push a ▸ hw)) hs
  | _ => cases hm

theorem Faults.stackUnderflow_of_mnemonic {s : State} {i : Instr} (hw : i.wellFormed = true)
    (hm : i.mnemonic = .pop) (hs : s.sp = spInit) : Faults s i .stackUnderflow := by
  cases i with
  | pop a => exact .stackUnderflow a (namesRegister_iff.1 (wellFormed_pop a ▸ hw)) hs
  | _ => cases hm

theorem exists_completes_of_checks {s : State} {i : Instr} (hw : i.wellFormed = true)
    (hpush : i.mnemonic = .push → s.sp ≠ 0) (hpop : i.mnemonic = .pop → s.sp ≠ spInit) :
    ∃ t, Completes s i t := by
  obtain hc | ⟨k, hk⟩ := completes_or_faults i s
  · exact hc
  · cases hk with
    | registerIndex _ hbad => cases hw.symm.trans hbad
    | stackOverflow _ _ hs => exact absurd hs (hpush rfl)
    | stackUnderflow _ _ hs => exact absurd hs (hpop rfl)

end Sys2Proof.Machine

namespace Sys2Proof.Proofs

open Sys2Proof.Machine

/-- Settles O8: the fetch decides between `AddressError`, `DecodeError` and the instruction at `pc`, whose
checks then decide what executing it raises. -/
theorem faultPriority : Obligations.FaultPriority := by
  intro c s hr
  refine ⟨fun htop => stepWith_of_fetch_error hr (fetch_past_top htop), fun hpc =>
    ⟨fun hd => stepWith_of_fetch_error hr (fetch_unrecognized hpc hd), fun m hd =>
      ⟨fun htop => stepWith_of_fetch_error hr (fetch_missing_operand hpc hd htop), fun hle => ?_⟩⟩⟩
  obtain ⟨-, i, -, -, hf, rfl, -⟩ | ⟨hlt, -⟩ := fetch_recognized hpc hd
  · have hstep : stepWith c s = exec i s := stepWith_of_fetch_ok hr hf
    rw [hstep]
    refine ⟨i, rfl, (fetch_ok_facts hf).2, exec_of_not_wellFormed s, fun hw hm hs => ?_,
      fun hw hm hs => ?_, fun hw hpush hpop => ?_⟩
    · exact exec_of_faults (.stackOverflow_of_mnemonic hw hm hs)
    · exact exec_of_faults (.stackUnderflow_of_mnemonic hw hm hs)
    · obtain ⟨t, ht⟩ := exists_completes_of_checks hw hpush hpop
      exact ⟨t, exec_of_completes ht, ht.err_eq⟩
  · exact absurd hle (Nat.not_le.2 hlt)

end Sys2Proof.Proofs
end

section
/-! # Lemmas shared by the statements about reset and hazards (70_reset_and_hazards.md) -/

namespace Sys2Proof.Machine

/-- A run that returns has spent the permission to load (R234). -/
theorem canLoad_of_run {c : Config} {fuel : Nat} {s s' : Session} (h : s.run c fuel = some s') :
    s'.canLoad = false := by
  obtain ⟨t, -, rfl⟩ := Option.map_eq_some_iff.1 h
  rfl

theorem load_eq_refused_iff {s : Session} {image : List Byte} :
    s.load image = .refused ↔ s.canLoad = false := by
  rw [Session.load]
  cases s.canLoad with
  | false => simp
  | true => by_cases hlen : 1 ≤ image.length ∧ image.length ≤ memSize <;> simp [hlen]

end Sys2Proof.Machine

namespace Sys2Proof.Proofs

open Sys2Proof.Machine

/-- Settles O14: an instruction completes or faults, and a step is `exec` of the fetched instruction, the fault
of its fetch, or idle. -/
theorem everyStepHasANextState : Obligations.EveryStepHasANextState :=
  ⟨exists_stepWith_next, exists_exec_next⟩

/-- Settles O56: the run has spent the permission that a load needs. -/
theorem loadAfterRunIsRefused : Obligations.LoadAfterRunIsRefused :=
  fun _ _ _ _ _ hrun => load_eq_refused_iff.2 (canLoad_of_run hrun)

end Sys2Proof.Proofs
end
